-- ==== Sys2Proof/Word.lean ====
section
/-! DEFINITION. The bit-vector widths of the CHIP-8 core: bytes, 16-bit words, the fields of an instruction word. -/

namespace Sys2Proof

/-- A byte: a memory cell, a general register, a timer, an NN immediate (R21, R28, R50). -/
abbrev Byte := BitVec 8

/-- A 16-bit word: an instruction word, `pc`, `i`, a stack entry (R25, R27, R30, R70). -/
abbrev Word := BitVec 16

/-- One hexadecimal digit of an instruction word (R6, R71). -/
abbrev Nibble := BitVec 4

/-- The number of a general register, v[0] to v[15] (R21). -/
abbrev Reg := BitVec 4

/-- A 12-bit address: the NNN immediate, the address of a LOAD (R71, R211). -/
abbrev Addr := BitVec 12

/-- The set of held keys as the port gives it: bit k is 1 when key code k is held (R160). -/
abbrev KeySet := BitVec 16

/-- v[15], the register that is also the flag VF (R22). -/
abbrev VF : Reg := 0xF#4

end Sys2Proof
end

