-- ==== Sys2Proof/Syntax.lean ====
section
/-! DEFINITION. The 34 instructions of the opcode table (R75), one constructor per row, in the table's order.
X and Y are register numbers, NN a byte, NNN a 12-bit address, N a count of 0 to 15 (R71, R73). -/

namespace Sys2Proof

/-- An instruction: each constructor is one row of R75, named after the row's customary mnemonic. -/
inductive Instr where
  /-- 00E0, CLS (R150). -/
  | cls
  /-- 00EE, RET (R91). -/
  | ret
  /-- 1NNN, JP NNN (R92). -/
  | jp (nnn : Addr)
  /-- 2NNN, CALL NNN (R93). -/
  | call (nnn : Addr)
  /-- 3XNN, SE Vx, NN (R94). -/
  | seImm (x : Reg) (nn : Byte)
  /-- 4XNN, SNE Vx, NN (R95). -/
  | sneImm (x : Reg) (nn : Byte)
  /-- 5XY0, SE Vx, Vy (R96). -/
  | seReg (x y : Reg)
  /-- 6XNN, LD Vx, NN (R110). -/
  | ldImm (x : Reg) (nn : Byte)
  /-- 7XNN, ADD Vx, NN (R111). -/
  | addImm (x : Reg) (nn : Byte)
  /-- 8XY0, LD Vx, Vy (R112). -/
  | ldReg (x y : Reg)
  /-- 8XY1, OR Vx, Vy (R113). -/
  | orReg (x y : Reg)
  /-- 8XY2, AND Vx, Vy (R114). -/
  | andReg (x y : Reg)
  /-- 8XY3, XOR Vx, Vy (R115). -/
  | xorReg (x y : Reg)
  /-- 8XY4, ADD Vx, Vy (R116). -/
  | addReg (x y : Reg)
  /-- 8XY5, SUB Vx, Vy (R117). -/
  | subReg (x y : Reg)
  /-- 8XY6, SHR Vx, Vy (R118). -/
  | shrReg (x y : Reg)
  /-- 8XY7, SUBN Vx, Vy (R119). -/
  | subnReg (x y : Reg)
  /-- 8XYE, SHL Vx, Vy (R120). -/
  | shlReg (x y : Reg)
  /-- 9XY0, SNE Vx, Vy (R97). -/
  | sneReg (x y : Reg)
  /-- ANNN, LD I, NNN (R130). -/
  | ldI (nnn : Addr)
  /-- BNNN, JP V0, NNN (R98). -/
  | jpV0 (nnn : Addr)
  /-- CXNN, RND Vx, NN (R121). -/
  | rnd (x : Reg) (nn : Byte)
  /-- DXYN, DRW Vx, Vy, N (R151). -/
  | drw (x y : Reg) (n : Nibble)
  /-- EX9E, SKP Vx (R161). -/
  | skp (x : Reg)
  /-- EXA1, SKNP Vx (R162). -/
  | sknp (x : Reg)
  /-- FX0A, LD Vx, K (R163). -/
  | ldKey (x : Reg)
  /-- FX07, LD Vx, DT (R164). -/
  | ldFromDt (x : Reg)
  /-- FX15, LD DT, Vx (R165). -/
  | ldDt (x : Reg)
  /-- FX18, LD ST, Vx (R166). -/
  | ldSt (x : Reg)
  /-- FX1E, ADD I, Vx (R131). -/
  | addI (x : Reg)
  /-- FX29, LD F, Vx (R132). -/
  | ldFont (x : Reg)
  /-- FX33, LD B, Vx (R133). -/
  | ldBcd (x : Reg)
  /-- FX55, LD [I], Vx (R134). -/
  | storeRegs (x : Reg)
  /-- FX65, LD Vx, [I] (R135). -/
  | loadRegs (x : Reg)
deriving DecidableEq, Repr

end Sys2Proof
end

