-- ==== Sys2Proof/Decode.lean ====
section
/-! DEFINITION. The decoder (R70 to R76, R79), total on every 16-bit word, the opcode table's match and mask words
(R75), and the encoder. -/

namespace Sys2Proof

/-- What the decoder finds: one of the 34 instructions, or an unrecognised word, rejected under that name (R76). -/
inductive Decoded where
  | instr (i : Instr)
  /-- A word that matches no row of R75; a STEP over it is a no-op (R76, R99). -/
  | unknown (w : Word)
deriving DecidableEq, Repr

/-- OP, the opcode class: bits 15:12 (R71). -/
def fieldOp (w : Word) : Nibble := w.extractLsb' 12 4

/-- X: bits 11:8 (R71). -/
def fieldX (w : Word) : Nibble := w.extractLsb' 8 4

/-- Y: bits 7:4 (R71). -/
def fieldY (w : Word) : Nibble := w.extractLsb' 4 4

/-- N: bits 3:0 (R71). -/
def fieldN (w : Word) : Nibble := w.extractLsb' 0 4

/-- The decoder of R79 on the four digits of a word; NN is Y ++ N and NNN is X ++ Y ++ N (R71). -/
def decodeDigits (op x y n : Nibble) : Decoded :=
  let unknown : Decoded := .unknown (op ++ x ++ y ++ n)
  match op with
  | 0x0#4 =>
    match x, y, n with
    | 0x0#4, 0xE#4, 0x0#4 => .instr .cls
    | 0x0#4, 0xE#4, 0xE#4 => .instr .ret
    | _, _, _ => unknown
  | 0x1#4 => .instr (.jp (x ++ y ++ n))
  | 0x2#4 => .instr (.call (x ++ y ++ n))
  | 0x3#4 => .instr (.seImm x (y ++ n))
  | 0x4#4 => .instr (.sneImm x (y ++ n))
  | 0x5#4 =>
    match n with
    | 0x0#4 => .instr (.seReg x y)
    | _ => unknown
  | 0x6#4 => .instr (.ldImm x (y ++ n))
  | 0x7#4 => .instr (.addImm x (y ++ n))
  | 0x8#4 =>
    match n with
    | 0x0#4 => .instr (.ldReg x y)
    | 0x1#4 => .instr (.orReg x y)
    | 0x2#4 => .instr (.andReg x y)
    | 0x3#4 => .instr (.xorReg x y)
    | 0x4#4 => .instr (.addReg x y)
    | 0x5#4 => .instr (.subReg x y)
    | 0x6#4 => .instr (.shrReg x y)
    | 0x7#4 => .instr (.subnReg x y)
    | 0xE#4 => .instr (.shlReg x y)
    | _ => unknown
  | 0x9#4 =>
    match n with
    | 0x0#4 => .instr (.sneReg x y)
    | _ => unknown
  | 0xA#4 => .instr (.ldI (x ++ y ++ n))
  | 0xB#4 => .instr (.jpV0 (x ++ y ++ n))
  | 0xC#4 => .instr (.rnd x (y ++ n))
  | 0xD#4 => .instr (.drw x y n)
  | 0xE#4 =>
    match y, n with
    | 0x9#4, 0xE#4 => .instr (.skp x)
    | 0xA#4, 0x1#4 => .instr (.sknp x)
    | _, _ => unknown
  | 0xF#4 =>
    match y, n with
    | 0x0#4, 0x7#4 => .instr (.ldFromDt x)
    | 0x0#4, 0xA#4 => .instr (.ldKey x)
    | 0x1#4, 0x5#4 => .instr (.ldDt x)
    | 0x1#4, 0x8#4 => .instr (.ldSt x)
    | 0x1#4, 0xE#4 => .instr (.addI x)
    | 0x2#4, 0x9#4 => .instr (.ldFont x)
    | 0x3#4, 0x3#4 => .instr (.ldBcd x)
    | 0x5#4, 0x5#4 => .instr (.storeRegs x)
    | 0x6#4, 0x5#4 => .instr (.loadRegs x)
    | _, _ => unknown
  | _ => unknown

/-- The decoder, a total function of the word alone (R74, R79). -/
def decode (w : Word) : Decoded := decodeDigits (fieldOp w) (fieldX w) (fieldY w) (fieldN w)

/-- The byte at `pc`, bits 15:8 of the word (R70). -/
def highByte (w : Word) : Byte := w.extractLsb' 8 8

/-- The byte at `pc + 1`, bits 7:0 of the word (R70). -/
def lowByte (w : Word) : Byte := w.extractLsb' 0 8

/-- The decoder on the two bytes of an instruction, the one at the lower address first (R53, R70). -/
def decodeBytes (first second : Byte) : Decoded := decode (first ++ second)

/-- The instruction read, if the word is one of the 34. -/
def Decoded.toInstr : Decoded → Option Instr
  | .instr i => some i
  | .unknown _ => none

/-- The word an opcode-table row's number stands for: its low `nbits` bits, every higher bit 0. -/
def tableWord (nbits w : Nat) : Word := BitVec.ofNat 16 (w % 2 ^ nbits)

/-- The decoder on an instruction numbered as spec/opcode_table.json numbers it. -/
def decodeTableWord (nbits w : Nat) : Option Instr :=
  (decodeBytes (highByte (tableWord nbits w)) (lowByte (tableWord nbits w))).toInstr

/-- The word of an instruction: the digits OP, X, Y, N of its pattern, most significant first (R71, R72, R79). -/
def encode : Instr → Word
  | .cls => 0x00E0#16
  | .ret => 0x00EE#16
  | .jp nnn => 0x1#4 ++ nnn
  | .call nnn => 0x2#4 ++ nnn
  | .seImm x nn => 0x3#4 ++ x ++ nn
  | .sneImm x nn => 0x4#4 ++ x ++ nn
  | .seReg x y => 0x5#4 ++ x ++ y ++ 0x0#4
  | .ldImm x nn => 0x6#4 ++ x ++ nn
  | .addImm x nn => 0x7#4 ++ x ++ nn
  | .ldReg x y => 0x8#4 ++ x ++ y ++ 0x0#4
  | .orReg x y => 0x8#4 ++ x ++ y ++ 0x1#4
  | .andReg x y => 0x8#4 ++ x ++ y ++ 0x2#4
  | .xorReg x y => 0x8#4 ++ x ++ y ++ 0x3#4
  | .addReg x y => 0x8#4 ++ x ++ y ++ 0x4#4
  | .subReg x y => 0x8#4 ++ x ++ y ++ 0x5#4
  | .shrReg x y => 0x8#4 ++ x ++ y ++ 0x6#4
  | .subnReg x y => 0x8#4 ++ x ++ y ++ 0x7#4
  | .shlReg x y => 0x8#4 ++ x ++ y ++ 0xE#4
  | .sneReg x y => 0x9#4 ++ x ++ y ++ 0x0#4
  | .ldI nnn => 0xA#4 ++ nnn
  | .jpV0 nnn => 0xB#4 ++ nnn
  | .rnd x nn => 0xC#4 ++ x ++ nn
  | .drw x y n => 0xD#4 ++ x ++ y ++ n
  | .skp x => 0xE#4 ++ x ++ 0x9E#8
  | .sknp x => 0xE#4 ++ x ++ 0xA1#8
  | .ldKey x => 0xF#4 ++ x ++ 0x0A#8
  | .ldFromDt x => 0xF#4 ++ x ++ 0x07#8
  | .ldDt x => 0xF#4 ++ x ++ 0x15#8
  | .ldSt x => 0xF#4 ++ x ++ 0x18#8
  | .addI x => 0xF#4 ++ x ++ 0x1E#8
  | .ldFont x => 0xF#4 ++ x ++ 0x29#8
  | .ldBcd x => 0xF#4 ++ x ++ 0x33#8
  | .storeRegs x => 0xF#4 ++ x ++ 0x55#8
  | .loadRegs x => 0xF#4 ++ x ++ 0x65#8

/-- The bytes of an instruction in memory order (R79). -/
def encodeBytes (i : Instr) : List Byte := [highByte (encode i), lowByte (encode i)]

/-- One row of the opcode table of R75: the words `match` and `mask`. -/
structure Row where
  matchBits : Word
  mask : Word
deriving DecidableEq, Repr

/-- `(w & mask) = match` (R72). -/
def Row.fits (r : Row) (w : Word) : Bool := decide (w &&& r.mask = r.matchBits)

/-- The row of R75 an instruction belongs to. -/
def Instr.row : Instr → Row
  | .cls => ⟨0x00E0, 0xFFFF⟩
  | .ret => ⟨0x00EE, 0xFFFF⟩
  | .jp _ => ⟨0x1000, 0xF000⟩
  | .call _ => ⟨0x2000, 0xF000⟩
  | .seImm _ _ => ⟨0x3000, 0xF000⟩
  | .sneImm _ _ => ⟨0x4000, 0xF000⟩
  | .seReg _ _ => ⟨0x5000, 0xF00F⟩
  | .ldImm _ _ => ⟨0x6000, 0xF000⟩
  | .addImm _ _ => ⟨0x7000, 0xF000⟩
  | .ldReg _ _ => ⟨0x8000, 0xF00F⟩
  | .orReg _ _ => ⟨0x8001, 0xF00F⟩
  | .andReg _ _ => ⟨0x8002, 0xF00F⟩
  | .xorReg _ _ => ⟨0x8003, 0xF00F⟩
  | .addReg _ _ => ⟨0x8004, 0xF00F⟩
  | .subReg _ _ => ⟨0x8005, 0xF00F⟩
  | .shrReg _ _ => ⟨0x8006, 0xF00F⟩
  | .subnReg _ _ => ⟨0x8007, 0xF00F⟩
  | .shlReg _ _ => ⟨0x800E, 0xF00F⟩
  | .sneReg _ _ => ⟨0x9000, 0xF00F⟩
  | .ldI _ => ⟨0xA000, 0xF000⟩
  | .jpV0 _ => ⟨0xB000, 0xF000⟩
  | .rnd _ _ => ⟨0xC000, 0xF000⟩
  | .drw _ _ _ => ⟨0xD000, 0xF000⟩
  | .skp _ => ⟨0xE09E, 0xF0FF⟩
  | .sknp _ => ⟨0xE0A1, 0xF0FF⟩
  | .ldKey _ => ⟨0xF00A, 0xF0FF⟩
  | .ldFromDt _ => ⟨0xF007, 0xF0FF⟩
  | .ldDt _ => ⟨0xF015, 0xF0FF⟩
  | .ldSt _ => ⟨0xF018, 0xF0FF⟩
  | .addI _ => ⟨0xF01E, 0xF0FF⟩
  | .ldFont _ => ⟨0xF029, 0xF0FF⟩
  | .ldBcd _ => ⟨0xF033, 0xF0FF⟩
  | .storeRegs _ => ⟨0xF055, 0xF0FF⟩
  | .loadRegs _ => ⟨0xF065, 0xF0FF⟩

/-- The 34 rows of R75, in the table's order. -/
def opcodeTable : List Row :=
  [⟨0x00E0, 0xFFFF⟩, ⟨0x00EE, 0xFFFF⟩, ⟨0x1000, 0xF000⟩, ⟨0x2000, 0xF000⟩, ⟨0x3000, 0xF000⟩, ⟨0x4000, 0xF000⟩]
  ++ [⟨0x5000, 0xF00F⟩, ⟨0x6000, 0xF000⟩, ⟨0x7000, 0xF000⟩, ⟨0x8000, 0xF00F⟩, ⟨0x8001, 0xF00F⟩, ⟨0x8002, 0xF00F⟩]
  ++ [⟨0x8003, 0xF00F⟩, ⟨0x8004, 0xF00F⟩, ⟨0x8005, 0xF00F⟩, ⟨0x8006, 0xF00F⟩, ⟨0x8007, 0xF00F⟩, ⟨0x800E, 0xF00F⟩]
  ++ [⟨0x9000, 0xF00F⟩, ⟨0xA000, 0xF000⟩, ⟨0xB000, 0xF000⟩, ⟨0xC000, 0xF000⟩, ⟨0xD000, 0xF000⟩, ⟨0xE09E, 0xF0FF⟩]
  ++ [⟨0xE0A1, 0xF0FF⟩, ⟨0xF00A, 0xF0FF⟩, ⟨0xF007, 0xF0FF⟩, ⟨0xF015, 0xF0FF⟩, ⟨0xF018, 0xF0FF⟩, ⟨0xF01E, 0xF0FF⟩]
  ++ [⟨0xF029, 0xF0FF⟩, ⟨0xF033, 0xF0FF⟩, ⟨0xF055, 0xF0FF⟩, ⟨0xF065, 0xF0FF⟩]

end Sys2Proof
end

