-- ==== Sys2Proof/Config.lean ====
section
/-! DEFINITION. The sizes R5 fixes, and the free values: the inputs `keys` and `rnd` that the host chooses for a STEP.
The parameters with a default (FONT, STACK_DEPTH, KEYSEL) are in Sys2Proof/Machine/Params.lean. -/

namespace Sys2Proof.Config

/-- MEM_SIZE of R5: 4096 bytes, addresses 0 to 4095. -/
abbrev memSize : Nat := 4096

/-- NREG of R5. -/
abbrev regCount : Nat := 16

/-- Columns of the display (R5, R31). -/
abbrev screenCols : Nat := 64

/-- Visible rows of the display (R5, R31). -/
abbrev screenRows : Nat := 32

/-- FB_ROWS of R5: the visible rows and the 14 off-screen rows a sprite can reach (R154). -/
abbrev fbRows : Nat := 46

/-- The `keys` input of the n-th STEP whose inputs the schedule does not give: any key set on any STEP (R160).
Free value, log 2. -/
opaque freeKeys : Nat → KeySet

/-- The `rnd` input of the n-th STEP whose inputs the schedule does not give: any byte on any STEP (R121).
Free value, log 2. -/
opaque freeRnd : Nat → Byte

end Sys2Proof.Config
end

