-- ==== Sys2Proof/Machine/Params.lean ====
section
/-! DEFINITION. The parameters of R5: the fixed addresses, and FONT, STACK_DEPTH and KEYSEL at the defaults the spec
names for them. -/

namespace Sys2Proof.Machine

/-- FONT_BASE of R5: where the font table starts. -/
abbrev fontBase : Nat := 0x050

/-- The bytes of one glyph (R5). -/
abbrev glyphSize : Nat := 5

/-- PROG_BASE of R5: the first address of loaded program code, the reset value of `pc`. -/
abbrev progBase : Nat := 0x200

/-- FONT, glyphs 0 to 7. PRESUMED: the default R35 supplies from general knowledge, log 4. -/
def fontLow : List Byte :=
  [0xF0, 0x90, 0x90, 0x90, 0xF0] ++ [0x20, 0x60, 0x20, 0x20, 0x70]
  ++ [0xF0, 0x10, 0xF0, 0x80, 0xF0] ++ [0xF0, 0x10, 0xF0, 0x10, 0xF0]
  ++ [0x90, 0x90, 0xF0, 0x10, 0x10] ++ [0xF0, 0x80, 0xF0, 0x10, 0xF0]
  ++ [0xF0, 0x80, 0xF0, 0x90, 0xF0] ++ [0xF0, 0x10, 0x20, 0x40, 0x40]

/-- FONT, glyphs 8 to F. PRESUMED: log 4. -/
def fontHigh : List Byte :=
  [0xF0, 0x90, 0xF0, 0x90, 0xF0] ++ [0xF0, 0x90, 0xF0, 0x10, 0xF0]
  ++ [0xF0, 0x90, 0xF0, 0x90, 0x90] ++ [0xE0, 0x90, 0xE0, 0x90, 0xE0]
  ++ [0xF0, 0x80, 0x80, 0x80, 0xF0] ++ [0xE0, 0x90, 0x90, 0x90, 0xE0]
  ++ [0xF0, 0x80, 0xF0, 0x80, 0xF0] ++ [0xF0, 0x80, 0xF0, 0x80, 0x80]

/-- FONT: the 80 bytes of the font table (R35). -/
def font : List Byte := fontLow ++ fontHigh

/-- STACK_DEPTH: the most entries the call stack holds, `none` for no bound (R5, R30). DESIGN CHOICE: the spec's
default, log 5. -/
def stackDepth : Option Nat := some 16

/-- KEYSEL: which of several held keys FX0A delivers (R5, R163). DESIGN CHOICE: the spec's default, the lowest code
held, log 6. -/
def keysel (keys : KeySet) : Byte :=
  BitVec.ofNat 8 (((List.range 16).find? fun k => keys.getLsbD k).getD 0)

end Sys2Proof.Machine
end

