-- ==== Sys2Proof/Machine/State.lean ====
section
/-! DEFINITION. The state of the machine as plain data: the eight components of R20, the host's side of the interface,
the reasons a step stops, and the state after reset (R34). -/

namespace Sys2Proof.Machine

/-- Main memory: the listed bytes in the canonical form of `Memory.wf`; an unlisted address reads as its reset byte
(R34, R50). -/
abbrev Memory := List Host.Cell

/-- The framebuffer: 46 rows of 64 pixels, `fb[y][x]` (R31, R154). -/
abbrev Framebuffer := Vector (Vector Bool Config.screenCols) Config.fbRows

/-- The four operations the host may invoke (R8). -/
inductive HostOp where
  /-- STEP(keys, rnd): one instruction (R90). -/
  | step (keys : KeySet) (rnd : Byte)
  /-- TICK: both timers count down (R188). -/
  | tick
  /-- LOAD(a, b): the host writes byte b at address a (R211). -/
  | load (a : Addr) (b : Byte)
  /-- RESET: the constructor (R210). -/
  | reset
deriving DecidableEq, Repr

/-- The machine's state. -/
structure State where
  /-- The general registers v[0] to v[15]; v[15] is VF (R21, R22). -/
  v : Vector Byte Config.regCount
  /-- Between STEPs the address of the next instruction; inside an effect that of the following one (R25). -/
  pc : Word
  /-- The index register (R27). -/
  i : Word
  /-- Main memory (R32, R50). -/
  memory : Memory
  /-- The return addresses, the top of the stack first (R30). -/
  stack : List Word
  /-- The delay timer (R28). -/
  dt : Byte
  /-- The sound timer (R28). -/
  st : Byte
  /-- The display (R31). -/
  fb : Framebuffer
  /-- The model's own: the `keys` input of the STEP being executed (R8, R160); log 2. -/
  keys : KeySet
  /-- The model's own: the `rnd` input of the STEP being executed (R8, R121); log 2. -/
  rnd : Byte
  /-- The model's own: the operations the host invokes next, in order; when none is listed the host invokes STEPs with
  free inputs (R8, R215); log 1. -/
  schedule : List HostOp
  /-- The model's own: how many pairs of free inputs have been drawn; log 2. -/
  fresh : Nat
deriving DecidableEq, Repr

/-- The faults of R180, each with the `info` of R183. A STEP that raises one changes nothing; the model's run ends
there, which is safe: no claim is made about what the host does next (log 7). -/
inductive Fault where
  /-- Code 1, raised by any STEP at fetch when `pc > 4094`; safe. -/
  | fetchOutOfBounds (pc : Nat)
  /-- Code 2, raised by DXYN, FX33, FX55, FX65 when their highest address exceeds 4095; safe. -/
  | memOutOfBounds (highest : Nat)
  /-- Code 3, raised by 00EE on an empty stack; safe. -/
  | stackUnderflow
  /-- Code 4, raised by 2NNN on a full stack; safe (log 5). -/
  | stackOverflow
deriving DecidableEq, Repr

/-- Why the model would give an instruction no meaning; no arm of `exec` does. -/
inductive Refusal where
  /-- An instruction not modelled yet, raised by its arm of `exec`; safe. No instruction is left so. -/
  | notModelled (mnemonic : String)
deriving DecidableEq, Repr

/-- What an operation answers. -/
abbrev Result := Host.Outcome State Fault Refusal

/-- The machine after RESET (R34, R210), with the host's side empty (log 1, log 2). The zeros of `v`, `i`, `dt` and
`st` are the spec's decision D5 (log 3). -/
def State.reset : State where
  v := Vector.replicate Config.regCount 0
  pc := BitVec.ofNat 16 progBase
  i := 0
  memory := []
  stack := []
  dt := 0
  st := 0
  fb := Vector.replicate Config.fbRows (Vector.replicate Config.screenCols false)
  keys := 0
  rnd := 0
  schedule := []
  fresh := 0

end Sys2Proof.Machine
end

