-- ==== Sys2Proof/Machine/Ops.lean ====
section
/-! DEFINITION. The named operations over memory, registers, stack, framebuffer and timers, raising a fault, and the
host's operations TICK, LOAD and RESET. -/

namespace Sys2Proof.Machine

/-! ### Faults -/

/-- Raising a fault: the STEP ends with the report and Machine State is what it was before the STEP; nothing is saved
and control goes nowhere (R183). There is no return from a fault (R185). -/
def raiseFault (f : Fault) : Result := .fault f

/-- The code of a fault (R180). -/
def Fault.code : Fault → Nat
  | .fetchOutOfBounds _ => 1
  | .memOutOfBounds _ => 2
  | .stackUnderflow => 3
  | .stackOverflow => 4

/-- The `info` of a fault report (R183). -/
def Fault.info : Fault → Nat
  | .fetchOutOfBounds pc => pc
  | .memOutOfBounds highest => highest
  | .stackUnderflow => 0
  | .stackOverflow => 0

/-! ### Memory -/

/-- What an address holds after RESET, and so what an unlisted one reads as: the font at 0x050 to 0x09F, zero
elsewhere (R34). -/
def Memory.unlisted (a : Nat) : Byte :=
  if fontBase ≤ a ∧ a < fontBase + 80 then font.getD (a - fontBase) 0 else 0

/-- `MemRead(a, 1)` on a valid address: the last value written (R50, R52). -/
def Memory.read : Memory → Nat → Byte
  | [], a => Memory.unlisted a
  | (k, c) :: rest, a => if k = a then c else Memory.read rest a

/-- `MemWrite(a, 1, b)` on a valid address (R50, R52), keeping the canonical form. -/
def Memory.write : Memory → Nat → Byte → Memory
  | [], a, b => if b = Memory.unlisted a then [] else [(a, b)]
  | (k, c) :: rest, a, b =>
    if a < k then
      if b = Memory.unlisted a then (k, c) :: rest else (a, b) :: (k, c) :: rest
    else if a = k then
      if b = Memory.unlisted a then rest else (a, b) :: rest
    else (k, c) :: Memory.write rest a b

/-- The canonical form from address `lo` on: addresses at least `lo`, strictly rising and below 4096, and no entry
equal to what its address reads as when unlisted. -/
def Memory.wfFrom (lo : Nat) : Memory → Bool
  | [] => true
  | (a, b) :: rest =>
    decide (lo ≤ a) && decide (a < Config.memSize) && decide (b ≠ Memory.unlisted a) && Memory.wfFrom (a + 1) rest

/-- The canonical form of memory. -/
def Memory.wf (m : Memory) : Bool := Memory.wfFrom 0 m

/-- Writes bytes at ascending addresses from `a` (R55, R57). -/
def Memory.storeBlock (m : Memory) (a : Nat) : List Byte → Memory
  | [] => m
  | b :: bs => Memory.storeBlock (m.write a b) (a + 1) bs

/-- Reads `n` bytes at ascending addresses from `a` (R55). -/
def Memory.loadBlock (m : Memory) (a n : Nat) : List Byte := (List.range n).map fun k => m.read (a + k)

/-- `MemRead(pc, 2)`: two bytes, the one at the lower address high (R53). -/
def Memory.readWord (m : Memory) (a : Nat) : Word := m.read a ++ m.read (a + 1)

/-- Writes a word's two bytes as fetch reads them (R53, R79). -/
def Memory.writeWord (m : Memory) (a : Nat) (w : Word) : Memory :=
  m.storeBlock a [w.extractLsb' 8 8, w.extractLsb' 0 8]

/-! ### Registers -/

/-- `v[k]` (R7, R21). -/
def State.reg (s : State) (k : Reg) : Byte := s.v[k.toNat]'k.isLt

/-- `v[k] <- b` (R7, R21). -/
def State.setReg (s : State) (k : Reg) (b : Byte) : State := { s with v := s.v.set k.toNat b k.isLt }

/-- The registers v[0], v[1], .. in order (R21). -/
def State.regList (s : State) : List Byte := s.v.toList

/-- Writes bytes to the registers v[k], v[k + 1], .. in ascending order (R135). -/
def writeRegs (v : Vector Byte Config.regCount) (k : Nat) : List Byte → Vector Byte Config.regCount
  | [] => v
  | b :: bs => writeRegs (v.setIfInBounds k b) (k + 1) bs

/-- `v[0] <- b_0, v[1] <- b_1, ..` in ascending order (R135). -/
def State.setRegs (s : State) (bs : List Byte) : State := { s with v := writeRegs s.v 0 bs }

/-- `pc <- a` (R7, R25). -/
def State.setPc (s : State) (a : Word) : State := { s with pc := a }

/-- `i <- a` (R7, R27). -/
def State.setI (s : State) (a : Word) : State := { s with i := a }

/-- `dt <- b` (R28). -/
def State.setDt (s : State) (b : Byte) : State := { s with dt := b }

/-- `st <- b` (R28). -/
def State.setSt (s : State) (b : Byte) : State := { s with st := b }

/-- Memory replaced by what the instruction's stores leave. -/
def State.setMemory (s : State) (m : Memory) : State := { s with memory := m }

/-- The display replaced by what the instruction draws. -/
def State.setFb (s : State) (f : Framebuffer) : State := { s with fb := f }

/-- The common advance and the skip: `pc <- pc + 2` (R90, R100). -/
def State.advance (s : State) : State := s.setPc (s.pc + 2)

/-- A skip: the following instruction is passed over when the condition holds (R100). -/
def State.skipIf (s : State) (c : Bool) : State := s.setPc (if c then s.pc + 2 else s.pc)

/-! ### The call stack -/

/-- The stack as a whole, replaced. -/
def State.setStack (s : State) (l : List Word) : State := { s with stack := l }

/-- A stack of `len` entries is full under the given STACK_DEPTH (R30, R93). -/
def stackFull (depth : Option Nat) (len : Nat) : Bool :=
  match depth with
  | none => false
  | some d => decide (d ≤ len)

/-- `push(stack, e)`, or StackOverflow on a full stack (R93), and then the continuation. -/
def State.push (s : State) (e : Word) (k : State → Result) : Result :=
  if stackFull stackDepth s.stack.length then raiseFault .stackOverflow else k (s.setStack (e :: s.stack))

/-- `pop(stack)`, or StackUnderflow on an empty stack (R91), and then the continuation on the entry popped. -/
def State.pop (s : State) (k : Word → State → Result) : Result :=
  match s.stack with
  | [] => raiseFault .stackUnderflow
  | e :: rest => k e (s.setStack rest)

/-! ### The framebuffer -/

/-- An empty display (R34, R150). -/
def blankFb : Framebuffer := Vector.replicate Config.fbRows (Vector.replicate Config.screenCols false)

/-- `fb[y][x]`; a coordinate off the 64 by 46 grid is never lit (R31, R154). -/
def Framebuffer.pixel (f : Framebuffer) (x y : Nat) : Bool := ((f[y]?).bind fun row => row[x]?).getD false

/-- Turns `fb[y][x]` over (R151). -/
def Framebuffer.toggle (f : Framebuffer) (x y : Nat) : Framebuffer :=
  match f[y]? with
  | none => f
  | some row => f.setIfInBounds y (row.setIfInBounds x (!f.pixel x y))

/-- The display and the collision bit `hit` while a sprite is drawn (R151). -/
structure Canvas where
  fb : Framebuffer
  hit : Bool
deriving DecidableEq, Repr

/-- One set sprite bit at (x, y): the pixel is turned over, and `hit` records that it was lit (R151, R153). -/
def Canvas.plot (d : Canvas) (x y : Nat) : Canvas := ⟨d.fb.toggle x y, d.hit || d.fb.pixel x y⟩

/-- One row of a sprite over the listed columns, most significant bit first; the first set bit beyond column 63 ends
the row (R151, R152). -/
def Canvas.drawRow (byte : Byte) (x0 y : Nat) : List Nat → Canvas → Canvas
  | [], d => d
  | c :: cs, d =>
    if byte.getLsbD (7 - c) then
      if x0 + c > 63 then d else Canvas.drawRow byte x0 y cs (d.plot (x0 + c) y)
    else Canvas.drawRow byte x0 y cs d

/-- The rows of a sprite, top to bottom from row `y` on (R151). -/
def Canvas.drawSprite (x0 : Nat) : Nat → List Byte → Canvas → Canvas
  | _, [], d => d
  | y, byte :: rows, d => Canvas.drawSprite x0 (y + 1) rows (d.drawRow byte x0 y (List.range 8))

/-! ### Timers and the host's operations -/

/-- One count down, stopping at zero (R28, R188). -/
def countDown (t : Byte) : Byte := if t = 0 then 0 else t - 1

/-- TICK: each timer counts down by one and nothing else changes (R188). -/
def State.tick (s : State) : State := (s.setDt (countDown s.dt)).setSt (countDown s.st)

/-- LOAD(a, b): `memory[a] <- b` and nothing else (R211). -/
def State.load (s : State) (a : Addr) (b : Byte) : State := s.setMemory (s.memory.write a.toNat b)

/-- RESET: every component of Machine State takes its reset value, whatever it was (R210); the host's pending
operations stay. -/
def State.resetMachine (s : State) : State :=
  { State.reset with keys := s.keys, rnd := s.rnd, schedule := s.schedule, fresh := s.fresh }

/-- The inputs `keys` and `rnd` of the STEP that now starts (R8). -/
def State.latch (s : State) (keys : KeySet) (rnd : Byte) : State := { s with keys := keys, rnd := rnd }

/-- The operation the host invokes next, and the state once it is taken from the schedule. With nothing scheduled it
is a STEP whose inputs are free (log 1, log 2). -/
def State.nextOp (s : State) : HostOp × State :=
  match s.schedule with
  | [] => (.step (Config.freeKeys s.fresh) (Config.freeRnd s.fresh), { s with fresh := s.fresh + 1 })
  | op :: rest => (op, { s with schedule := rest })

/-- What the host holds after a fault report: Machine State as it was, the STEP used up (R183, R185). -/
def State.afterFault (s : State) : State := s.nextOp.2

/-- `MemRead(pc, 2)` with its bounds check on the whole of `pc` (R53, R90); `none` is FetchOutOfBounds. -/
def State.fetch (s : State) : Option Word :=
  if s.pc.toNat > 4094 then none else some (s.memory.readWord s.pc.toNat)

/-- Whether an operation is a STEP. -/
def HostOp.isStep : HostOp → Bool
  | .step _ _ => true
  | .tick | .load _ _ | .reset => false

/-- Whether LOAD may be used after an operation, given whether it could be before: RESET opens the launch and STEP ends
it (R212). DESIGN CHOICE: a later RESET opens a new launch, log 8. -/
def HostOp.launching (before : Bool) : HostOp → Bool
  | .reset => true
  | .step _ _ => false
  | .tick | .load _ _ => before

/-- The launch premise "LOAD is used only between RESET and the first STEP" on the host's operations in order, of which
the first comes inside such a launch or not (R212). The core checks none of it (R211). -/
def loadsAtLaunch : Bool → List HostOp → Bool
  | _, [] => true
  | now, op :: ops =>
    (match op with
      | .load _ _ => now
      | .step _ _ | .tick | .reset => true) && loadsAtLaunch (op.launching now) ops

/-- The LOADs that copy an image to ascending addresses from `a` (R212). -/
def loadOps (a : Nat) : List Byte → List HostOp
  | [] => []
  | b :: bs => .load (BitVec.ofNat 12 a) b :: loadOps (a + 1) bs

/-- The boot sequence of R212: RESET, then byte k of the image to 0x200 + k. An image of more than 4096 - 512 bytes is not
launched (log 8). -/
def bootOps (image : List Byte) : Option (List HostOp) :=
  if image.length ≤ 3584 then some (.reset :: loadOps progBase image) else none

end Sys2Proof.Machine
end

