-- ==== Sys2Proof/Machine/Operands.lean ====
section
/-! DEFINITION. The operand forms: registers by number, the immediates, and the effective address `i + k` with its
bounds check (R73, R136). -/

namespace Sys2Proof.Machine

/-- NNN as a value of `pc` or `i`: zero-extended to 16 bits (R73). -/
def zext16 (nnn : Addr) : Word := nnn.zeroExtend 16

/-- A register's value as a 16-bit addend (R98, R131). -/
def byte16 (b : Byte) : Word := b.zeroExtend 16

/-- The effective address `i + k`, an unbounded number (R56, R136). -/
def State.effAddr (s : State) (k : Nat) : Nat := s.i.toNat + k

/-- The check of R65: an instruction that touches the `n` addresses from `i` on faults, before any effect, exactly
when the highest of them exceeds 4095; otherwise it completes with `t`. -/
def State.guarded (s : State) (n : Nat) (t : State) : Result :=
  if n ≠ 0 ∧ s.effAddr (n - 1) > 4095 then raiseFault (.memOutOfBounds (s.effAddr (n - 1))) else .next t

/-- X as a count: the number of registers v[0] to v[X] (R73, R134, R135). -/
def blockLen (x : Reg) : Nat := x.toNat + 1

/-- The horizontal start of a sprite (R151). -/
def State.spriteX (s : State) (x : Reg) : Nat := (s.reg x).toNat % Config.screenCols

/-- The vertical start of a sprite (R151). -/
def State.spriteY (s : State) (y : Reg) : Nat := (s.reg y).toNat % Config.screenRows

/-- The decimal digits of a byte: hundreds, tens, units (R133). -/
def decimalDigits (a : Byte) : List Byte :=
  [BitVec.ofNat 8 (a.toNat / 100), BitVec.ofNat 8 (a.toNat / 10 % 10), BitVec.ofNat 8 (a.toNat % 10)]

/-- The address of the glyph of a byte's low nibble (R132). -/
def fontAddr (b : Byte) : Word := BitVec.ofNat 16 (fontBase + glyphSize * (b.toNat % 16))

/-- The key whose code is the whole of the byte is held; a code above 15 never is (R161). -/
def keyHeld (keys : KeySet) (code : Byte) : Bool := decide (code.toNat ≤ 15) && keys.getLsbD code.toNat

end Sys2Proof.Machine
end

