-- ==== Sys2Proof/Machine/Flags.lean ====
section
/-! DEFINITION. The flag values the seven flag-writing instructions compute, and the write of VF (R22, R23). -/

namespace Sys2Proof.Machine

/-- Carry of 8XY4: the 8-bit sum overflowed (R116). -/
def carryAdd (a b : Byte) : Bool := decide (a.toNat + b.toNat > 255)

/-- The inverted borrow of 8XY5 and 8XY7: minuend at least subtrahend (R117, R119). -/
def noBorrow (minuend subtrahend : Byte) : Bool := decide (subtrahend.toNat ≤ minuend.toNat)

/-- The bit a right shift drops (R118). -/
def shiftedOutRight (b : Byte) : Bool := b.getLsbD 0

/-- The bit a left shift drops (R120). -/
def shiftedOutLeft (b : Byte) : Bool := b.getLsbD 7

/-- Carry of FX1E: the sum overflowed 16 bits (R131). -/
def carryIndex (a : Word) (b : Byte) : Bool := decide (a.toNat + b.toNat > 65535)

/-- A flag as VF holds it: 0x00 or 0x01 (R22). -/
def flagByte (c : Bool) : Byte := if c then 1 else 0

/-- The write of VF as a flag, the last write of an instruction (R22, R24). -/
def State.setFlag (s : State) (c : Bool) : State := s.setReg VF (flagByte c)

end Sys2Proof.Machine
end

