-- ==== Sys2Proof/Machine/Alu.lean ====
section
/-! DEFINITION. Register loads, arithmetic, logic, shifts and the random byte (41_alu.md): operands first, then v[X],
then VF (R122). -/

namespace Sys2Proof.Machine

/-- 6XNN (R110). -/
def execLdImm (x : Reg) (nn : Byte) (s : State) : Result := .next (s.setReg x nn)

/-- 7XNN, no flag (R111). -/
def execAddImm (x : Reg) (nn : Byte) (s : State) : Result := .next (s.setReg x (s.reg x + nn))

/-- 8XY0 (R112). -/
def execLdReg (x y : Reg) (s : State) : Result := .next (s.setReg x (s.reg y))

/-- 8XY1 (R113). -/
def execOrReg (x y : Reg) (s : State) : Result := .next (s.setReg x (s.reg x ||| s.reg y))

/-- 8XY2 (R114). -/
def execAndReg (x y : Reg) (s : State) : Result := .next (s.setReg x (s.reg x &&& s.reg y))

/-- 8XY3 (R115). -/
def execXorReg (x y : Reg) (s : State) : Result := .next (s.setReg x (s.reg x ^^^ s.reg y))

/-- 8XY4 (R116). -/
def execAddReg (x y : Reg) (s : State) : Result :=
  let a := s.reg x
  let b := s.reg y
  .next ((s.setReg x (a + b)).setFlag (carryAdd a b))

/-- 8XY5 (R117). -/
def execSubReg (x y : Reg) (s : State) : Result :=
  let a := s.reg x
  let b := s.reg y
  .next ((s.setReg x (a - b)).setFlag (noBorrow a b))

/-- 8XY6: the shifted value is v[Y] (R118). -/
def execShrReg (x y : Reg) (s : State) : Result :=
  let b := s.reg y
  .next ((s.setReg x (b >>> 1)).setFlag (shiftedOutRight b))

/-- 8XY7 (R119). -/
def execSubnReg (x y : Reg) (s : State) : Result :=
  let a := s.reg x
  let b := s.reg y
  .next ((s.setReg x (b - a)).setFlag (noBorrow b a))

/-- 8XYE: the shifted value is v[Y] (R120). -/
def execShlReg (x y : Reg) (s : State) : Result :=
  let b := s.reg y
  .next ((s.setReg x (b <<< 1)).setFlag (shiftedOutLeft b))

/-- CXNN: `rnd` is the input of this STEP (R121). -/
def execRnd (x : Reg) (nn : Byte) (s : State) : Result := .next (s.setReg x (s.rnd &&& nn))

end Sys2Proof.Machine
end

