-- ==== Sys2Proof/Machine/ControlFlow.lean ====
section
/-! DEFINITION. Return, jumps, call and the register skips (40_control_flow.md). `pc` has already been advanced. -/

namespace Sys2Proof.Machine

/-- 00EE (R91). -/
def execRet (s : State) : Result := s.pop fun e s' => .next (s'.setPc e)

/-- 1NNN (R92). -/
def execJp (nnn : Addr) (s : State) : Result := .next (s.setPc (zext16 nnn))

/-- 2NNN: pushes the address of the following instruction (R93). -/
def execCall (nnn : Addr) (s : State) : Result := s.push s.pc fun s' => .next (s'.setPc (zext16 nnn))

/-- BNNN: the sum is not reduced modulo 4096 (R98). -/
def execJpV0 (nnn : Addr) (s : State) : Result := .next (s.setPc (zext16 nnn + byte16 (s.reg 0)))

/-- 3XNN (R94). -/
def execSeImm (x : Reg) (nn : Byte) (s : State) : Result := .next (s.skipIf (s.reg x == nn))

/-- 4XNN (R95). -/
def execSneImm (x : Reg) (nn : Byte) (s : State) : Result := .next (s.skipIf (s.reg x != nn))

/-- 5XY0 (R96). -/
def execSeReg (x y : Reg) (s : State) : Result := .next (s.skipIf (s.reg x == s.reg y))

/-- 9XY0 (R97). -/
def execSneReg (x y : Reg) (s : State) : Result := .next (s.skipIf (s.reg x != s.reg y))

end Sys2Proof.Machine
end

