-- ==== Sys2Proof/Machine/Display.lean ====
section
/-! DEFINITION. The display instructions (43_display.md). -/

namespace Sys2Proof.Machine

/-- 00E0: every pixel off, the off-screen rows included (R150). -/
def execCls (s : State) : Result := .next (s.setFb blankFb)

/-- DXYN: N rows from `i`, drawn from (v[X] mod 64, v[Y] mod 32); the flag is the collision bit (R151 to R153). -/
def execDrw (x y : Reg) (n : Nibble) (s : State) : Result :=
  let sprite := s.memory.loadBlock (s.effAddr 0) n.toNat
  let d := Canvas.drawSprite (s.spriteX x) (s.spriteY y) sprite ⟨s.fb, false⟩
  s.guarded n.toNat ((s.setFb d.fb).setFlag d.hit)

end Sys2Proof.Machine
end

