-- ==== Sys2Proof/Machine/IndexMemory.lean ====
section
/-! DEFINITION. The index register and the memory instructions (42_index_memory.md). -/

namespace Sys2Proof.Machine

/-- ANNN (R130). -/
def execLdI (nnn : Addr) (s : State) : Result := .next (s.setI (zext16 nnn))

/-- FX1E: the flag is the 16-bit carry (R131). -/
def execAddI (x : Reg) (s : State) : Result :=
  let b := s.reg x
  .next ((s.setI (s.i + byte16 b)).setFlag (carryIndex s.i b))

/-- FX29 (R132). -/
def execLdFont (x : Reg) (s : State) : Result := .next (s.setI (fontAddr (s.reg x)))

/-- FX33 (R133). -/
def execLdBcd (x : Reg) (s : State) : Result :=
  s.guarded 3 (s.setMemory (s.memory.storeBlock (s.effAddr 0) (decimalDigits (s.reg x))))

/-- FX55: the addresses use the old `i`, which then moves past the block (R134). -/
def execStoreRegs (x : Reg) (s : State) : Result :=
  s.guarded (blockLen x)
    ((s.setMemory (s.memory.storeBlock (s.effAddr 0) (s.regList.take (blockLen x)))).setI
      (BitVec.ofNat 16 (s.effAddr (blockLen x))))

/-- FX65 (R135). -/
def execLoadRegs (x : Reg) (s : State) : Result :=
  s.guarded (blockLen x)
    ((s.setRegs (s.memory.loadBlock (s.effAddr 0) (blockLen x))).setI (BitVec.ofNat 16 (s.effAddr (blockLen x))))

end Sys2Proof.Machine
end

