-- ==== Sys2Proof/Machine/KeysTimers.lean ====
section
/-! DEFINITION. The key and timer instructions (44_keys_timers.md). -/

namespace Sys2Proof.Machine

/-- EX9E (R161). -/
def execSkp (x : Reg) (s : State) : Result := .next (s.skipIf (keyHeld s.keys (s.reg x)))

/-- EXA1 (R162). -/
def execSknp (x : Reg) (s : State) : Result := .next (s.skipIf (!keyHeld s.keys (s.reg x)))

/-- FX0A: with no key held `pc` goes back to this FX0A (R163). -/
def execLdKey (x : Reg) (s : State) : Result :=
  .next (if s.keys = 0 then s.setPc (s.pc - 2) else s.setReg x (keysel s.keys))

/-- FX07 (R164). -/
def execLdFromDt (x : Reg) (s : State) : Result := .next (s.setReg x s.dt)

/-- FX15 (R165). -/
def execLdDt (x : Reg) (s : State) : Result := .next (s.setDt (s.reg x))

/-- FX18 (R166). -/
def execLdSt (x : Reg) (s : State) : Result := .next (s.setSt (s.reg x))

end Sys2Proof.Machine
end

