-- ==== Sys2Proof/Machine/Sequencer.lean ====
section
/-! DEFINITION. The STEP sequencer (R90), unrecognised words (R99), and one operation of the host (R8). -/

namespace Sys2Proof.Machine

/-- The effect of an unrecognised word: none, `pc` having advanced past it (R99). -/
def execUnknown (s : State) : Result := .next s

/-- The effect of what the decoder found (R74, R90). -/
def execDecoded : Decoded → State → Result
  | .instr i, s => exec i s
  | .unknown _, s => execUnknown s

/-- STEP(keys, rnd): fetch with its bounds check, advance, decode, apply the effect (R90). -/
def stepInstr (keys : KeySet) (rnd : Byte) (s : State) : Result :=
  match s.fetch with
  | none => raiseFault (.fetchOutOfBounds s.pc.toNat)
  | some w => execDecoded (decode w) (s.latch keys rnd).advance

/-- One operation of the host (R8). -/
def applyOp : HostOp → State → Result
  | .step keys rnd, s => stepInstr keys rnd s
  | .tick, s => .next s.tick
  | .load a b, s => .next (s.load a b)
  | .reset, s => .next s.resetMachine

/-- The address a word is placed at so that the next STEP fetches it: `pc`, or 0x200 where `pc` is beyond the last
address that can be fetched. -/
def State.placeAddr (s : State) : Nat := if s.pc.toNat > 4094 then progBase else s.pc.toNat

/-- The state with a word where the next STEP fetches it, and a STEP the host's next operation. -/
def State.placeWord (s : State) (w : Word) : State :=
  { s with
    memory := s.memory.writeWord s.placeAddr w
    pc := BitVec.ofNat 16 s.placeAddr
    schedule := s.schedule.dropWhile fun op => !op.isStep }

end Sys2Proof.Machine
end

