-- ==== Sys2Proof/Machine/Step.lean ====
section
/-! DEFINITION. One step of the machine: the host's next operation (R8), a STEP unless the schedule says otherwise. -/

namespace Sys2Proof.Machine

/-- One transition of the machine: "the hardware is a state machine whose transitions are four externally invoked
operations" (R8). -/
def step (s : State) : Host.Outcome State Fault Refusal := applyOp s.nextOp.1 s.nextOp.2

/-- The state with an instruction of the opcode table placed where the next step fetches it; it stands for the
host's LOADs of a program (R212, log 8). -/
def State.withFetchWord (s : State) (nbits w : Nat) : State := s.placeWord (tableWord nbits w)

end Sys2Proof.Machine
end

