-- ==== Sys2Proof/WellFormed.lean ====
section
/-! DEFINITION. Well-formed instructions and program images. The operand types of Instr already hold each operand
to the range R73 gives it, so an ill-formed instruction cannot be built; the checks say those ranges as numbers. -/

namespace Sys2Proof.WellFormed

/-- A register number is 0 to 15 (R21, R73). -/
def regOk (k : Nat) : Bool := decide (k < Config.regCount)

/-- NN is 0 to 255 (R73). -/
def byteOk (k : Nat) : Bool := decide (k ≤ 255)

/-- NNN is 0 to 4095 (R73). -/
def addrOk (k : Nat) : Bool := decide (k ≤ 4095)

/-- N is a count of 0 to 15 rows (R73). -/
def countOk (k : Nat) : Bool := decide (k ≤ 15)

/-- A program image fits between 0x200 and the end of memory: at most 3584 bytes (R211, R212). -/
def imageOk (image : List Byte) : Bool := decide (image.length ≤ 3584)

end Sys2Proof.WellFormed

namespace Sys2Proof

/-- Every operand of the instruction is in the range R73 gives it. -/
def Instr.wellFormed : Instr → Bool
  | .cls | .ret => true
  | .jp nnn | .call nnn | .ldI nnn | .jpV0 nnn => WellFormed.addrOk nnn.toNat
  | .seImm x nn | .sneImm x nn | .ldImm x nn | .addImm x nn | .rnd x nn =>
    WellFormed.regOk x.toNat && WellFormed.byteOk nn.toNat
  | .seReg x y | .ldReg x y | .orReg x y | .andReg x y | .xorReg x y | .addReg x y | .subReg x y
  | .shrReg x y | .subnReg x y | .shlReg x y | .sneReg x y =>
    WellFormed.regOk x.toNat && WellFormed.regOk y.toNat
  | .drw x y n => WellFormed.regOk x.toNat && WellFormed.regOk y.toNat && WellFormed.countOk n.toNat
  | .skp x | .sknp x | .ldKey x | .ldFromDt x | .ldDt x | .ldSt x | .addI x | .ldFont x | .ldBcd x
  | .storeRegs x | .loadRegs x => WellFormed.regOk x.toNat

end Sys2Proof
end

