-- ==== Sys2Proof/Safety.lean ====
section
/-! DEFINITION. The terms the statements use: what two states share, the invariant of the machine, the launch and
the end of a run. -/

namespace Sys2Proof.Machine

/-- The parts of State other than the general registers; `host` is the model's own side of the interface: `keys`,
`rnd`, `schedule` and `fresh`. -/
inductive Part where
  | pc
  | i
  | memory
  | stack
  | dt
  | st
  | fb
  | host
deriving DecidableEq, Repr

/-- `t` agrees with `s` on everything but the named parts and the named registers: the frame of an instruction.
Memory agrees when every byte of it reads the same. -/
structure AgreesBut (parts : List Part) (regs : List Reg) (s t : State) : Prop where
  reg : ∀ k, k ∉ regs → t.reg k = s.reg k
  pc : .pc ∉ parts → t.pc = s.pc
  i : .i ∉ parts → t.i = s.i
  memory : .memory ∉ parts → ∀ a, t.memory.read a = s.memory.read a
  stack : .stack ∉ parts → t.stack = s.stack
  dt : .dt ∉ parts → t.dt = s.dt
  st : .st ∉ parts → t.st = s.st
  fb : .fb ∉ parts → t.fb = s.fb
  host : .host ∉ parts → t.keys = s.keys ∧ t.rnd = s.rnd ∧ t.schedule = s.schedule ∧ t.fresh = s.fresh

/-- Machine State, the eight components of R20, is the same. -/
abbrev SameMachine (s t : State) : Prop := AgreesBut [.host] [] s t

/-- What every step keeps: memory in its canonical form; at most STACK_DEPTH = 16 return addresses (R30), each the
address after some 2NNN and so at most 4096 (R91); `pc` at most 0x10FE (R26). -/
abbrev Inv (s : State) : Prop :=
  s.memory.wf = true ∧ s.stack.length ≤ 16 ∧ (∀ e ∈ s.stack, e.toNat ≤ 4096) ∧ s.pc.toNat ≤ 0x10FE

/-- The end state of a run that succeeded: a jump to itself at `pc` (R216). -/
abbrev SelfJump (s : State) : Prop :=
  s.pc.toNat ≤ 4094 ∧ s.memory.readWord s.pc.toNat = 0x1000#16 ||| s.pc

/-- The host's next operation is STEP(keys, rnd): from the schedule, or with free inputs when nothing is scheduled. -/
abbrev NextIsStep (s : State) (keys : KeySet) (rnd : Byte) : Prop := s.nextOp.1 = .step keys rnd

/-- The launch premises of R212 on all the operations of a host, from before its RESET on. The rest of them hold of every
schedule by its type: one operation at a time, and key codes 0 to 15 only. -/
structure LaunchPremises (image : List Byte) (ops : List HostOp) : Prop where
  /-- "the program image fits". -/
  image_fits : WellFormed.imageOk image = true
  /-- RESET and the LOADs of the image come first. -/
  boots_first : ∃ boot rest, bootOps image = some boot ∧ ops = boot ++ rest
  /-- "LOAD is used only between RESET and the first STEP". -/
  loads_at_launch : loadsAtLaunch false ops = true

/-- The registers v[0] to v[X], the block of FX55 and FX65 (R134, R135). -/
def regsUpTo (x : Reg) : List Reg := (List.range (x.toNat + 1)).map fun k => BitVec.ofNat 4 k

/-- Whether DXYN turns the pixel (px, py) over: bit 7 - c of the byte at `i + r`, where c and r are the pixel's column
and row in the sprite; columns beyond 63 are clipped, rows are not (R151, R152). -/
def State.turnsOver (s : State) (x y : Reg) (n : Nibble) (px py : Nat) : Bool :=
  let x0 := (s.reg x).toNat % 64
  let y0 := (s.reg y).toNat % 32
  decide (x0 ≤ px ∧ px < x0 + 8 ∧ px ≤ 63 ∧ y0 ≤ py ∧ py < y0 + n.toNat) &&
    (s.memory.read (s.effAddr (py - y0))).getLsbD (7 - (px - x0))

/-- The unrecognised words, class by class as the table of R76 lists them. -/
abbrev Unrecognised (w : Word) : Prop :=
  let op := w.toNat / 4096
  let n := w.toNat % 16
  let nn := w.toNat % 256
  (op = 0x0 ∧ w ≠ 0x00E0#16 ∧ w ≠ 0x00EE#16) ∨ (op = 0x5 ∧ n ≠ 0) ∨
    (op = 0x8 ∧ n ∈ [0x8, 0x9, 0xA, 0xB, 0xC, 0xD, 0xF]) ∨ (op = 0x9 ∧ n ≠ 0) ∨
    (op = 0xE ∧ nn ∉ [0x9E, 0xA1]) ∨
    (op = 0xF ∧ nn ∉ [0x07, 0x0A, 0x15, 0x18, 0x1E, 0x29, 0x33, 0x55, 0x65])

end Sys2Proof.Machine
end

