-- ==== Sys2Proof/Certificates/Slice0/Obligations.lean ====
section
/-! DEFINITION. The statements about the model, from the numbered rules of spec/. A statement about an instruction says
three things at once: the word that decodes to it, that it completes, and what it changes and leaves unchanged. -/

open Sys2Proof Sys2Proof.Machine

/-! ### Encoding -/

/-- 30_encoding.md, section 6: encoding and decoding agree on every instruction and every operand value. -/
def Obligations.DecodeUndoesEncode : Prop := ∀ i : Instr, decode (encode i) = .instr i

/-- 30_encoding.md, sections 3 and 6: an instruction has one word, so no bit of a recognised word is dropped. -/
def Obligations.EncodeUndoesDecode : Prop := ∀ (w : Word) (i : Instr), decode w = .instr i → encode i = w

/-- R72: a word is of a given instruction exactly when it has the match and mask of its row; the six formats' masks are
those of the rows. -/
def Obligations.DecodeFollowsMatchAndMask : Prop :=
  (∀ (w : Word) (i : Instr), decode w = .instr i → i.row ∈ opcodeTable ∧ w &&& i.row.mask = i.row.matchBits) ∧
    (∀ (w : Word) (r : Row), r ∈ opcodeTable → w &&& r.mask = r.matchBits →
      ∃ i : Instr, i.row = r ∧ decode w = .instr i)

/-- 30_encoding.md, section 3: the 34 rows are pairwise disjoint. The exact masks are the spec's decision D9. -/
def Obligations.OpcodeRowsAreDisjoint : Prop :=
  opcodeTable.length = 34 ∧
    opcodeTable.Pairwise fun r r' => ∀ w : Word, ¬(w &&& r.mask = r.matchBits ∧ w &&& r'.mask = r'.matchBits)

/-- 30_encoding.md, section 4: the words the decoder does not recognise are those of the table of R76. -/
def Obligations.UnrecognisedWordsAreListed : Prop :=
  ∀ w : Word, (decode w = .unknown w ↔ Unrecognised w) ∧ ((∃ w', decode w = .unknown w') ↔ Unrecognised w)

/-- 95_test_vectors.md, section 3.7: words written out from the encoding table, and what they stand for. -/
def Obligations.WordsDecodeAsListed : Prop :=
  decode 0x00E0#16 = .instr .cls ∧ decode 0x00E1#16 = .unknown 0x00E1#16 ∧ decode 0x00EE#16 = .instr .ret ∧
  decode 0x1ABC#16 = .instr (.jp 0xABC) ∧ decode 0x2FFF#16 = .instr (.call 0xFFF) ∧
  decode 0x3A42#16 = .instr (.seImm 10 0x42) ∧ decode 0x5AB0#16 = .instr (.seReg 10 11) ∧
  decode 0x5AB1#16 = .unknown 0x5AB1#16 ∧ decode 0x8AB4#16 = .instr (.addReg 10 11) ∧
  decode 0x8AB8#16 = .unknown 0x8AB8#16 ∧ decode 0x8ABE#16 = .instr (.shlReg 10 11) ∧
  decode 0xD01F#16 = .instr (.drw 0 1 15) ∧ decode 0xE1A1#16 = .instr (.sknp 1) ∧
  decode 0xFE33#16 = .instr (.ldBcd 14) ∧ decode 0xF075#16 = .unknown 0xF075#16

/-! ### Register file and ALU -/

/-- R110, R111: the immediate load, and the immediate add without a flag; X = 15 is a register like any other. -/
def Obligations.ImmediateLoadAndAdd : Prop :=
  ∀ (x : Reg) (nn : Byte),
    decode (0x6#4 ++ x ++ nn) = .instr (.ldImm x nn) ∧ decode (0x7#4 ++ x ++ nn) = .instr (.addImm x nn) ∧
    ∀ s : State,
      (∃ t, exec (.ldImm x nn) s = .next t ∧ t.reg x = nn ∧ AgreesBut [] [x] s t) ∧
      (∃ t, exec (.addImm x nn) s = .next t ∧ (t.reg x).toNat = ((s.reg x).toNat + nn.toNat) % 256 ∧
        AgreesBut [] [x] s t)

/-- R112 to R115: copy, OR, AND, XOR; none writes VF unless X = 15. -/
def Obligations.CopyAndLogic : Prop :=
  ∀ x y : Reg,
    decode (0x8#4 ++ x ++ y ++ 0x0#4) = .instr (.ldReg x y) ∧ decode (0x8#4 ++ x ++ y ++ 0x1#4) = .instr (.orReg x y) ∧
    decode (0x8#4 ++ x ++ y ++ 0x2#4) = .instr (.andReg x y) ∧
    decode (0x8#4 ++ x ++ y ++ 0x3#4) = .instr (.xorReg x y) ∧
    ∀ s : State,
      (∃ t, exec (.ldReg x y) s = .next t ∧ t.reg x = s.reg y ∧ AgreesBut [] [x] s t) ∧
      (∃ t, exec (.orReg x y) s = .next t ∧ AgreesBut [] [x] s t ∧
        ∀ k < 8, (t.reg x).getLsbD k = ((s.reg x).getLsbD k || (s.reg y).getLsbD k)) ∧
      (∃ t, exec (.andReg x y) s = .next t ∧ AgreesBut [] [x] s t ∧
        ∀ k < 8, (t.reg x).getLsbD k = ((s.reg x).getLsbD k && (s.reg y).getLsbD k)) ∧
      (∃ t, exec (.xorReg x y) s = .next t ∧ AgreesBut [] [x] s t ∧
        ∀ k < 8, (t.reg x).getLsbD k = ((s.reg x).getLsbD k != (s.reg y).getLsbD k))

/-- R116: the 8-bit sum and the carry, VF written last. -/
def Obligations.AddSetsCarry : Prop :=
  ∀ x y : Reg,
    decode (0x8#4 ++ x ++ y ++ 0x4#4) = .instr (.addReg x y) ∧
    ∀ s : State, ∃ t, exec (.addReg x y) s = .next t ∧ AgreesBut [] [x, VF] s t ∧
      (x ≠ VF → (t.reg x).toNat = ((s.reg x).toNat + (s.reg y).toNat) % 256) ∧
      t.reg VF = (if (s.reg x).toNat + (s.reg y).toNat > 255 then 1 else 0)

/-- R117, R119: the two subtractions, VF the inverted borrow, written last. -/
def Obligations.SubtractSetsInvertedBorrow : Prop :=
  ∀ x y : Reg,
    decode (0x8#4 ++ x ++ y ++ 0x5#4) = .instr (.subReg x y) ∧
    decode (0x8#4 ++ x ++ y ++ 0x7#4) = .instr (.subnReg x y) ∧
    ∀ s : State,
      (∃ t, exec (.subReg x y) s = .next t ∧ AgreesBut [] [x, VF] s t ∧
        (x ≠ VF → ((t.reg x).toNat : Int) = ((s.reg x).toNat - (s.reg y).toNat : Int) % 256) ∧
        t.reg VF = (if (s.reg x).toNat < (s.reg y).toNat then 0 else 1)) ∧
      (∃ t, exec (.subnReg x y) s = .next t ∧ AgreesBut [] [x, VF] s t ∧
        (x ≠ VF → ((t.reg x).toNat : Int) = ((s.reg y).toNat - (s.reg x).toNat : Int) % 256) ∧
        t.reg VF = (if (s.reg y).toNat < (s.reg x).toNat then 0 else 1))

/-- R118, R120: the shifted value is v[Y]; VF is the bit shifted out, taken before any write and written last. -/
def Obligations.ShiftsMoveTheLostBitToVF : Prop :=
  ∀ x y : Reg,
    decode (0x8#4 ++ x ++ y ++ 0x6#4) = .instr (.shrReg x y) ∧
    decode (0x8#4 ++ x ++ y ++ 0xE#4) = .instr (.shlReg x y) ∧
    ∀ s : State,
      (∃ t, exec (.shrReg x y) s = .next t ∧ AgreesBut [] [x, VF] s t ∧
        (x ≠ VF → (t.reg x).toNat = (s.reg y).toNat / 2) ∧ (t.reg VF).toNat = (s.reg y).toNat % 2) ∧
      (∃ t, exec (.shlReg x y) s = .next t ∧ AgreesBut [] [x, VF] s t ∧
        (x ≠ VF → (t.reg x).toNat = 2 * (s.reg y).toNat % 256) ∧ (t.reg VF).toNat = (s.reg y).toNat / 128)

/-- 41_alu.md, section 6: CXNN masks the STEP's `rnd` input, whatever it is (the spec's decision D12; log 2). -/
def Obligations.RandomByteIsMasked : Prop :=
  ∀ (x : Reg) (nn : Byte),
    decode (0xC#4 ++ x ++ nn) = .instr (.rnd x nn) ∧
    ∀ s : State, ∃ t, exec (.rnd x nn) s = .next t ∧ AgreesBut [] [x] s t ∧
      ∀ k < 8, (t.reg x).getLsbD k = (s.rnd.getLsbD k && nn.getLsbD k)

/-- 95_test_vectors.md, S1: 6XNN and then 7XNN twice leave three times NN modulo 256, and VF as it was when X is
another register. -/
def Obligations.LoadThenAddTwiceWraps : Prop :=
  ∀ (x : Reg) (nn : Byte) (s : State), ∃ t u w,
    exec (.ldImm x nn) s = .next t ∧ exec (.addImm x nn) t = .next u ∧ exec (.addImm x nn) u = .next w ∧
    (w.reg x).toNat = (nn.toNat + nn.toNat + nn.toNat) % 256 ∧ AgreesBut [] [x] s w

/-! ### Control flow -/

/-- R92, R98: the two jumps; the target is not checked and the sum of BNNN is not reduced. -/
def Obligations.JumpsSetPc : Prop :=
  ∀ nnn : Addr,
    decode (0x1#4 ++ nnn) = .instr (.jp nnn) ∧ decode (0xB#4 ++ nnn) = .instr (.jpV0 nnn) ∧
    ∀ s : State,
      (∃ t, exec (.jp nnn) s = .next t ∧ t.pc.toNat = nnn.toNat ∧ AgreesBut [.pc] [] s t) ∧
      (∃ t, exec (.jpV0 nnn) s = .next t ∧ t.pc.toNat = nnn.toNat + (s.reg 0).toNat ∧ AgreesBut [.pc] [] s t)

/-- 40_control_flow.md, section 2, 2NNN: the address of the following instruction is pushed; a stack of 16 entries
overflows. STACK_DEPTH = 16 and the fault are the spec's decision D4 (log 5). -/
def Obligations.CallPushesReturnAddress : Prop :=
  ∀ nnn : Addr,
    decode (0x2#4 ++ nnn) = .instr (.call nnn) ∧
    ∀ s : State,
      (s.stack.length < 16 → ∃ t, exec (.call nnn) s = .next t ∧ t.stack = s.pc :: s.stack ∧
        t.pc.toNat = nnn.toNat ∧ AgreesBut [.pc, .stack] [] s t) ∧
      (s.stack.length = 16 → exec (.call nnn) s = .fault .stackOverflow)

/-- R91: the most recently pushed entry goes to `pc`, all 16 bits of it; an empty stack is StackUnderflow. -/
def Obligations.ReturnPopsIntoPc : Prop :=
  decode 0x00EE#16 = .instr .ret ∧
  ∀ s : State,
    (∀ e rest, s.stack = e :: rest → ∃ t, exec .ret s = .next t ∧ t.pc = e ∧ t.stack = rest ∧
      AgreesBut [.pc, .stack] [] s t) ∧
    (s.stack = [] → exec .ret s = .fault .stackUnderflow)

/-- 40_control_flow.md, section 2: a return undoes a call when what ran between left the stack as the call left it. -/
def Obligations.ReturnUndoesCall : Prop :=
  ∀ (nnn : Addr) (s t u : State), exec (.call nnn) s = .next t → u.stack = t.stack →
    ∃ w, exec .ret u = .next w ∧ w.pc = s.pc ∧ w.stack = s.stack

/-- R94 to R97: the four register skips; `pc` in the state is already the address of the following instruction. -/
def Obligations.RegisterSkips : Prop :=
  (∀ (x : Reg) (nn : Byte),
    decode (0x3#4 ++ x ++ nn) = .instr (.seImm x nn) ∧ decode (0x4#4 ++ x ++ nn) = .instr (.sneImm x nn) ∧
    ∀ s : State,
      (∃ t, exec (.seImm x nn) s = .next t ∧ AgreesBut [.pc] [] s t ∧
        t.pc = (if (s.reg x).toNat = nn.toNat then s.pc + 2 else s.pc)) ∧
      (∃ t, exec (.sneImm x nn) s = .next t ∧ AgreesBut [.pc] [] s t ∧
        t.pc = (if (s.reg x).toNat = nn.toNat then s.pc else s.pc + 2))) ∧
  (∀ x y : Reg,
    decode (0x5#4 ++ x ++ y ++ 0x0#4) = .instr (.seReg x y) ∧ decode (0x9#4 ++ x ++ y ++ 0x0#4) = .instr (.sneReg x y) ∧
    (∀ n : Nibble, n ≠ 0 → (decode (0x5#4 ++ x ++ y ++ n) = .unknown (0x5#4 ++ x ++ y ++ n) ∧
      decode (0x9#4 ++ x ++ y ++ n) = .unknown (0x9#4 ++ x ++ y ++ n))) ∧
    ∀ s : State,
      (∃ t, exec (.seReg x y) s = .next t ∧ AgreesBut [.pc] [] s t ∧
        t.pc = (if (s.reg x).toNat = (s.reg y).toNat then s.pc + 2 else s.pc)) ∧
      (∃ t, exec (.sneReg x y) s = .next t ∧ AgreesBut [.pc] [] s t ∧
        t.pc = (if (s.reg x).toNat = (s.reg y).toNat then s.pc else s.pc + 2)))

/-! ### Index register and memory -/

/-- R130, R132: ANNN, and FX29, which takes the low nibble of v[X]. -/
def Obligations.IndexLoads : Prop :=
  (∀ nnn : Addr, decode (0xA#4 ++ nnn) = .instr (.ldI nnn) ∧
    ∀ s : State, ∃ t, exec (.ldI nnn) s = .next t ∧ t.i.toNat = nnn.toNat ∧ AgreesBut [.i] [] s t) ∧
  (∀ x : Reg, decode (0xF#4 ++ x ++ 0x29#8) = .instr (.ldFont x) ∧
    ∀ s : State, ∃ t, exec (.ldFont x) s = .next t ∧ t.i.toNat = 0x050 + 5 * ((s.reg x).toNat % 16) ∧
      AgreesBut [.i] [] s t)

/-- R131: the 16-bit sum and its carry; X = 15 adds the old VF. -/
def Obligations.AddToIndexSetsCarry : Prop :=
  ∀ x : Reg, decode (0xF#4 ++ x ++ 0x1E#8) = .instr (.addI x) ∧
    ∀ s : State, ∃ t, exec (.addI x) s = .next t ∧ AgreesBut [.i] [VF] s t ∧
      t.i.toNat = (s.i.toNat + (s.reg x).toNat) % 65536 ∧
      t.reg VF = (if s.i.toNat + (s.reg x).toNat > 65535 then 1 else 0)

/-- R133: the three decimal digits at `i`, `i + 1`, `i + 2`, every other byte as before; beyond 4095 nothing is
written. Memory in its canonical form is the model's invariant (StepKeepsInvariant). -/
def Obligations.DecimalDigitsStored : Prop :=
  ∀ x : Reg, decode (0xF#4 ++ x ++ 0x33#8) = .instr (.ldBcd x) ∧
    ∀ s : State,
      (s.memory.wf = true → s.effAddr 2 ≤ 4095 → ∃ t, exec (.ldBcd x) s = .next t ∧
        (t.memory.read (s.effAddr 0)).toNat = (s.reg x).toNat / 100 ∧
        (t.memory.read (s.effAddr 1)).toNat = (s.reg x).toNat / 10 % 10 ∧
        (t.memory.read (s.effAddr 2)).toNat = (s.reg x).toNat % 10 ∧
        (∀ a, a < s.effAddr 0 ∨ s.effAddr 2 < a → t.memory.read a = s.memory.read a) ∧
        AgreesBut [.memory] [] s t) ∧
      (s.effAddr 2 > 4095 → exec (.ldBcd x) s = .fault (.memOutOfBounds (s.effAddr 2)))

/-- R134: v[0] to v[X] at ascending addresses from the old `i`, every other byte as before, and `i` moved past the
block. -/
def Obligations.RegisterBlockStored : Prop :=
  ∀ x : Reg, decode (0xF#4 ++ x ++ 0x55#8) = .instr (.storeRegs x) ∧
    ∀ s : State,
      (s.memory.wf = true → s.effAddr x.toNat ≤ 4095 → ∃ t, exec (.storeRegs x) s = .next t ∧
        (∀ k : Reg, k.toNat ≤ x.toNat → t.memory.read (s.effAddr k.toNat) = s.reg k) ∧
        (∀ a, a < s.effAddr 0 ∨ s.effAddr x.toNat < a → t.memory.read a = s.memory.read a) ∧
        t.i.toNat = s.i.toNat + x.toNat + 1 ∧ AgreesBut [.memory, .i] [] s t) ∧
      (s.effAddr x.toNat > 4095 → exec (.storeRegs x) s = .fault (.memOutOfBounds (s.effAddr x.toNat)))

/-- R135: v[0] to v[X] from ascending addresses from the old `i`, the registers above v[X] and all of memory as
before, and `i` moved past the block. -/
def Obligations.RegisterBlockLoaded : Prop :=
  ∀ x : Reg, decode (0xF#4 ++ x ++ 0x65#8) = .instr (.loadRegs x) ∧
    ∀ s : State,
      (s.effAddr x.toNat ≤ 4095 → ∃ t, exec (.loadRegs x) s = .next t ∧
        (∀ k : Reg, k.toNat ≤ x.toNat → t.reg k = s.memory.read (s.effAddr k.toNat)) ∧
        t.i.toNat = s.i.toNat + x.toNat + 1 ∧ AgreesBut [.i] (regsUpTo x) s t) ∧
      (s.effAddr x.toNat > 4095 → exec (.loadRegs x) s = .fault (.memOutOfBounds (s.effAddr x.toNat)))

/-- 95_test_vectors.md, S4 (90_conflicts.md C9): FX55, `i` set back, FX65 restores v[0] to v[X], whatever else
happened in between that left the stored bytes alone. -/
def Obligations.StoreThenLoadRestoresRegisters : Prop :=
  ∀ (x : Reg) (s t u : State), s.memory.wf = true → exec (.storeRegs x) s = .next t →
    (∀ a, s.effAddr 0 ≤ a → a ≤ s.effAddr x.toNat → u.memory.read a = t.memory.read a) → u.i = s.i →
    ∃ w, exec (.loadRegs x) u = .next w ∧ (∀ k : Reg, k.toNat ≤ x.toNat → w.reg k = s.reg k) ∧ w.i = t.i

/-- 20_memory.md, section 5: a stored word is what the very next fetch from its address reads (self-modifying code). -/
def Obligations.StoreIsSeenByNextFetch : Prop :=
  ∀ (x : Reg) (s t : State), s.memory.wf = true → x ≠ 0 → exec (.storeRegs x) s = .next t → t.pc = s.i →
    t.fetch = some (s.reg 0 ++ s.reg 1)

/-! ### Display -/

/-- R150: every pixel off, the off-screen rows included, VF not written; on an empty display nothing changes. -/
def Obligations.ClearEmptiesDisplay : Prop :=
  decode 0x00E0#16 = .instr .cls ∧
  ∀ s : State, ∃ t, exec .cls s = .next t ∧ (∀ px py, t.fb.pixel px py = false) ∧ AgreesBut [.fb] [] s t ∧
    ((∀ px py, s.fb.pixel px py = false) → t.fb = s.fb)

/-- R151: the sprite is an exclusive OR onto the framebuffer from (v[X] mod 64, v[Y] mod 32), clipped at column 63 and
at no row; VF is 1 exactly when a lit pixel was turned off; N = 0 touches no memory and clears VF; the bounds fault. -/
def Obligations.DrawTogglesSpritePixels : Prop :=
  ∀ (x y : Reg) (n : Nibble), decode (0xD#4 ++ x ++ y ++ n) = .instr (.drw x y n) ∧
    ∀ s : State,
      (n = 0 ∨ s.effAddr (n.toNat - 1) ≤ 4095 → ∃ t, exec (.drw x y n) s = .next t ∧
        (∀ px py, t.fb.pixel px py = (s.fb.pixel px py != s.turnsOver x y n px py)) ∧
        (t.reg VF = 0 ∨ t.reg VF = 1) ∧
        (t.reg VF = 1 ↔ ∃ px py, s.fb.pixel px py = true ∧ s.turnsOver x y n px py = true) ∧
        AgreesBut [.fb] [VF] s t) ∧
      (n ≠ 0 → s.effAddr (n.toNat - 1) > 4095 →
        exec (.drw x y n) s = .fault (.memOutOfBounds (s.effAddr (n.toNat - 1))))

/-- 43_display.md, section 2 (Scenario D): the same sprite drawn again at the same place restores the display, and the
second draw collides exactly when the first lit a pixel. -/
def Obligations.DrawingTwiceRestoresDisplay : Prop :=
  ∀ (x y : Reg) (n : Nibble) (s t u : State), exec (.drw x y n) s = .next t →
    u.fb = t.fb → u.i = s.i → (∀ a, u.memory.read a = s.memory.read a) → u.reg x = s.reg x → u.reg y = s.reg y →
    ∃ w, exec (.drw x y n) u = .next w ∧ w.fb = s.fb ∧
      (w.reg VF = 1 ↔ ∃ px py, s.fb.pixel px py = false ∧ s.turnsOver x y n px py = true)

/-- 43_display.md, section 3: a draw changes no pixel outside the eight columns and N rows of the sprite, none beyond
column 63 and none beyond row 45; rows 32 to 45 it does reach. -/
def Obligations.DrawStaysInItsRectangle : Prop :=
  ∀ (x y : Reg) (n : Nibble) (s t : State) (px py : Nat), exec (.drw x y n) s = .next t →
    t.fb.pixel px py ≠ s.fb.pixel px py →
    (s.reg x).toNat % 64 ≤ px ∧ px < (s.reg x).toNat % 64 + 8 ∧ px ≤ 63 ∧
      (s.reg y).toNat % 32 ≤ py ∧ py < (s.reg y).toNat % 32 + n.toNat ∧ py ≤ 45

/-! ### Keys and timers -/

/-- 44_keys_timers.md, section 2: the whole byte v[X] is the key code, and a code above 15 is never held (the spec's
decision D11); EX9E and EXA1 are complements. -/
def Obligations.KeySkips : Prop :=
  ∀ x : Reg, decode (0xE#4 ++ x ++ 0x9E#8) = .instr (.skp x) ∧ decode (0xE#4 ++ x ++ 0xA1#8) = .instr (.sknp x) ∧
    ∀ s : State,
      (∃ t, exec (.skp x) s = .next t ∧ AgreesBut [.pc] [] s t ∧
        t.pc = (if (s.reg x).toNat ≤ 15 ∧ s.keys.getLsbD (s.reg x).toNat = true then s.pc + 2 else s.pc)) ∧
      (∃ t, exec (.sknp x) s = .next t ∧ AgreesBut [.pc] [] s t ∧
        t.pc = (if (s.reg x).toNat ≤ 15 ∧ s.keys.getLsbD (s.reg x).toNat = true then s.pc else s.pc + 2))

/-- 44_keys_timers.md, section 3: with a key held v[X] takes the lowest held code (KEYSEL, the model's choice of the
spec's default D7, log 6); with none held `pc` goes back by 2. -/
def Obligations.KeyWaitTakesLowestKeyOrRewinds : Prop :=
  ∀ x : Reg, decode (0xF#4 ++ x ++ 0x0A#8) = .instr (.ldKey x) ∧
    ∀ s : State,
      (s.keys ≠ 0 → ∃ t, exec (.ldKey x) s = .next t ∧ AgreesBut [] [x] s t ∧ (t.reg x).toNat ≤ 15 ∧
        s.keys.getLsbD (t.reg x).toNat = true ∧ ∀ k < (t.reg x).toNat, s.keys.getLsbD k = false) ∧
      (s.keys = 0 → ∃ t, exec (.ldKey x) s = .next t ∧ AgreesBut [.pc] [] s t ∧ t.pc = s.pc - 2)

/-- 44_keys_timers.md, section 3: a STEP over FX0A with no key held leaves Machine State exactly as it was. -/
def Obligations.WaitingStepChangesNothing : Prop :=
  ∀ (x : Reg) (rnd : Byte) (s : State), NextIsStep s 0 rnd → s.pc.toNat ≤ 4094 →
    s.memory.readWord s.pc.toNat = 0xF#4 ++ x ++ 0x0A#8 → ∃ t, step s = .next t ∧ SameMachine s t

/-- R164 to R166: the timers are read by FX07 and written by FX15 and FX18. -/
def Obligations.TimerAccess : Prop :=
  ∀ x : Reg, decode (0xF#4 ++ x ++ 0x07#8) = .instr (.ldFromDt x) ∧ decode (0xF#4 ++ x ++ 0x15#8) = .instr (.ldDt x) ∧
    decode (0xF#4 ++ x ++ 0x18#8) = .instr (.ldSt x) ∧
    ∀ s : State,
      (∃ t, exec (.ldFromDt x) s = .next t ∧ t.reg x = s.dt ∧ AgreesBut [] [x] s t) ∧
      (∃ t, exec (.ldDt x) s = .next t ∧ t.dt = s.reg x ∧ AgreesBut [.dt] [] s t) ∧
      (∃ t, exec (.ldSt x) s = .next t ∧ t.st = s.reg x ∧ AgreesBut [.st] [] s t)

/-! ### The host's operations and reset -/

/-- R188: TICK counts both timers down, each stopping at zero, and changes nothing else. -/
def Obligations.TickSaturates : Prop :=
  ∀ s : State, s.nextOp.1 = .tick → ∃ t, step s = .next t ∧
    t.dt.toNat = (if s.dt.toNat > 0 then s.dt.toNat - 1 else 0) ∧
    t.st.toNat = (if s.st.toNat > 0 then s.st.toNat - 1 else 0) ∧ AgreesBut [.dt, .st, .host] [] s t

/-- 70_reset_and_hazards.md, section 2: LOAD writes one byte, at any address, and changes nothing else (the operation
is the spec's decision D1). -/
def Obligations.LoadWritesOneByte : Prop :=
  ∀ (s : State) (a : Addr) (b : Byte), s.memory.wf = true → s.nextOp.1 = .load a b → ∃ t, step s = .next t ∧
    (∀ a', t.memory.read a' = if a' = a.toNat then b else s.memory.read a') ∧ AgreesBut [.memory, .host] [] s t

/-- 10_state.md, section 10: what reset leaves, and RESET from any state gives the same. The zeros of v, i, dt and st
are the spec's decision D5 (log 3), and the font's bytes a parameter (D6, log 4). -/
def Obligations.ResetValues : Prop :=
  State.reset.pc.toNat = 0x200 ∧ (∀ k, State.reset.reg k = 0) ∧ State.reset.i = 0 ∧ State.reset.dt = 0 ∧
  State.reset.st = 0 ∧ State.reset.stack = [] ∧ (∀ px py, State.reset.fb.pixel px py = false) ∧
  (∀ a, State.reset.memory.read a =
    if 0x050 ≤ a ∧ a ≤ 0x09F then font.getD (a - 0x050) 0 else 0) ∧ font.length = 80 ∧
  (∀ s : State, s.nextOp.1 = .reset → ∃ t, step s = .next t ∧ SameMachine State.reset t)

/-- 70_reset_and_hazards.md, section 2: the boot sequence, from any state, leaves the reset state with the image at
0x200, and what was scheduled after it still to come; a longer image is not launched (93_implementation_defined.md
U11, log 8). -/
def Obligations.BootSequenceLoadsImage : Prop :=
  ∀ image : List Byte,
    (WellFormed.imageOk image = true → ∃ ops, bootOps image = some ops ∧ ∀ (s : State) (rest : List HostOp),
      s.schedule = ops ++ rest → ∃ t, core.run ops.length s = .next t ∧ t.schedule = rest ∧
        (∀ a, t.memory.read a =
          if 0x200 ≤ a ∧ a < 0x200 + image.length then image.getD (a - 0x200) 0 else State.reset.memory.read a) ∧
        AgreesBut [.memory, .host] [] State.reset t) ∧
    (WellFormed.imageOk image = false → bootOps image = none)

/-- 70_reset_and_hazards.md, section 2: the launch premises admit every image that fits, followed by any operations that
use no LOAD outside a launch, and nothing else; a LOAD after a STEP with no RESET between them breaks them. The premises
are the spec's decision D15; that a later RESET opens a new launch, in which LOAD may be used again, is the model's
choice (log 8). -/
def Obligations.LaunchPremisesAdmitBootedRuns : Prop :=
  ∀ (image : List Byte) (ops : List HostOp),
    (LaunchPremises image ops ↔ WellFormed.imageOk image = true ∧
      ∃ boot rest, bootOps image = some boot ∧ ops = boot ++ rest ∧ loadsAtLaunch true rest = true) ∧
    (∀ before keys rnd between a b after, (∀ op ∈ between, op ≠ .reset) →
      ops = before ++ .step keys rnd :: (between ++ .load a b :: after) → ¬ LaunchPremises image ops)

/-- 70_reset_and_hazards.md, section 2: under the launch premises every step leaves a schedule that keeps them, and once
the launch is over memory changes only under FX33 and FX55, until a RESET. The premises are the spec's decision D15;
that a later RESET opens a new launch is the model's choice (log 8). -/
def Obligations.MemoryIsTheInstructionsAfterLaunch : Prop :=
  ∀ (now : Bool) (s t : State), loadsAtLaunch now s.schedule = true → step s = .next t →
    loadsAtLaunch (s.nextOp.1.launching now) t.schedule = true ∧
    (now = false → t.memory ≠ s.memory → s.nextOp.1 = .reset ∨
      ∃ keys rnd x, NextIsStep s keys rnd ∧ s.pc.toNat ≤ 4094 ∧
        (decode (s.memory.readWord s.pc.toNat) = .instr (.ldBcd x) ∨
          decode (s.memory.readWord s.pc.toNat) = .instr (.storeRegs x)))

/-! ### One step -/

/-- 40_control_flow.md, section 1: where the word at `pc` decodes to an instruction, a step is `exec` of it on the state
with the operation taken from the schedule, the inputs latched and `pc` advanced by 2. With nothing scheduled the
inputs are the free values of log 2. -/
def Obligations.StepRunsDecodedInstruction : Prop :=
  ∀ (s : State) (i : Instr), s.pc.toNat ≤ 4094 →
    decode (s.memory.read s.pc.toNat ++ s.memory.read (s.pc.toNat + 1)) = .instr i →
    (∀ keys rnd rest, s.schedule = .step keys rnd :: rest →
      step s = exec i { s with schedule := rest, keys := keys, rnd := rnd, pc := s.pc + 2 }) ∧
    (s.schedule = [] →
      step s = exec i { s with fresh := s.fresh + 1, keys := Config.freeKeys s.fresh,
                               rnd := Config.freeRnd s.fresh, pc := s.pc + 2 })

/-- R99: an unrecognised word at `pc` advances `pc` by 2 and changes nothing else; only the fetch can fault. Which words
these are is the table of R76, by the spec's decision D9 (log 10). -/
def Obligations.UnrecognisedWordIsNoOp : Prop :=
  ∀ (s : State) (keys : KeySet) (rnd : Byte), NextIsStep s keys rnd →
    (s.pc.toNat ≤ 4094 → Unrecognised (s.memory.read s.pc.toNat ++ s.memory.read (s.pc.toNat + 1)) →
      ∃ t, step s = .next t ∧ t.pc.toNat = s.pc.toNat + 2 ∧ AgreesBut [.pc, .host] [] s t) ∧
    (s.pc.toNat > 4094 → step s = .fault (.fetchOutOfBounds s.pc.toNat))

/-- 20_memory.md, section 3: a STEP faults at fetch exactly when `pc` is beyond 4094, compared in full, and reports
`pc` (the spec's decision D24). -/
def Obligations.FetchFaultsExactlyBeyond4094 : Prop :=
  ∀ (s : State) (keys : KeySet) (rnd : Byte) (p : Nat), NextIsStep s keys rnd →
    (step s = .fault (.fetchOutOfBounds p) ↔ s.pc.toNat > 4094 ∧ p = s.pc.toNat)

/-- 60_exceptions.md, section 1: which instructions fault, exactly when, and with which report; no other instruction
faults on any state, and none is refused. That the others are 28, where R180 counts 24, is deduced from R75 (log 9);
STACK_DEPTH = 16 is the model's choice of the spec's default (log 5). -/
def Obligations.InstructionFaultsExactlyWhen : Prop :=
  ∀ (i : Instr) (s : State),
    (∀ f, exec i s = .fault f ↔
      (∃ x y n, i = .drw x y n ∧ n ≠ 0 ∧ s.i.toNat + n.toNat - 1 > 4095 ∧
        f = .memOutOfBounds (s.i.toNat + n.toNat - 1)) ∨
      (∃ x, i = .ldBcd x ∧ s.i.toNat + 2 > 4095 ∧ f = .memOutOfBounds (s.i.toNat + 2)) ∨
      (∃ x, (i = .storeRegs x ∨ i = .loadRegs x) ∧ s.i.toNat + x.toNat > 4095 ∧
        f = .memOutOfBounds (s.i.toNat + x.toNat)) ∨
      (i = .ret ∧ s.stack = [] ∧ f = .stackUnderflow) ∨
      (∃ nnn, i = .call nnn ∧ s.stack.length ≥ 16 ∧ f = .stackOverflow)) ∧
    (∀ q, exec i s ≠ .refused q)

/-- 60_exceptions.md, section 2: after a fault report Machine State is what it was, so a further STEP, with any
inputs, gives the same report; and a step that is no STEP does not fault. -/
def Obligations.FaultRepeats : Prop :=
  ∀ (s : State) (f : Fault), step s = .fault f →
    (∃ keys rnd, NextIsStep s keys rnd) ∧ SameMachine s s.afterFault ∧
    ∀ keys rnd, NextIsStep s.afterFault keys rnd → step s.afterFault = .fault f

/-- 70_reset_and_hazards.md, section 5: from a self-jump every number of STEPs leaves Machine State as it was. That the
steps beyond the end of the schedule are STEPs, and no TICK, is the model's choice (log 1). -/
def Obligations.SelfJumpIsAFixedPoint : Prop :=
  ∀ (n : Nat) (s : State), SelfJump s → (∀ op ∈ s.schedule, op.isStep = true) →
    ∃ t, core.run n s = .next t ∧ SameMachine s t

/-- 30_encoding.md, section 3: a word of the opcode table placed at the fetch address is the instruction the next step
runs. It is about the model's own placing of a word (log 8). -/
def Obligations.PlacedWordRunsNext : Prop :=
  ∀ (s : State) (w : Nat) (i : Instr), s.memory.wf = true → decodeTableWord 16 w = some i →
    ∃ u, step (s.withFetchWord 16 w) = exec i u ∧ AgreesBut [.pc, .memory, .host] [] s u ∧
      (s.pc.toNat ≤ 4094 → u.pc = s.pc + 2) ∧
      (∀ a, a ≠ s.placeAddr → a ≠ s.placeAddr + 1 → u.memory.read a = s.memory.read a)

/-! ### Rules about all instructions -/

/-- 10_state.md, sections 2 to 8: which instructions may write each of the eight components of Machine State, `pc` beyond
the common advance; nothing writes the host's side. -/
def Obligations.ComponentsHaveOnlyTheirWriters : Prop :=
  ∀ (i : Instr) (s t : State), exec i s = .next t →
    (t.memory ≠ s.memory → ∃ x, i = .ldBcd x ∨ i = .storeRegs x) ∧
    (t.fb ≠ s.fb → i = .cls ∨ ∃ x y n, i = .drw x y n) ∧
    (t.stack ≠ s.stack → i = .ret ∨ ∃ nnn, i = .call nnn) ∧
    (t.dt ≠ s.dt → ∃ x, i = .ldDt x) ∧ (t.st ≠ s.st → ∃ x, i = .ldSt x) ∧
    (t.i ≠ s.i → (∃ nnn, i = .ldI nnn) ∨ ∃ x, i = .addI x ∨ i = .ldFont x ∨ i = .storeRegs x ∨ i = .loadRegs x) ∧
    (t.pc ≠ s.pc → i = .ret ∨ (∃ nnn, i = .jp nnn ∨ i = .call nnn ∨ i = .jpV0 nnn) ∨
      (∃ x nn, i = .seImm x nn ∨ i = .sneImm x nn) ∨ (∃ x y, i = .seReg x y ∨ i = .sneReg x y) ∨
      ∃ x, i = .skp x ∨ i = .sknp x ∨ i = .ldKey x) ∧
    (∀ k, t.reg k ≠ s.reg k →
      (∃ nn, i = .ldImm k nn ∨ i = .addImm k nn ∨ i = .rnd k nn) ∨
      (∃ y, i = .ldReg k y ∨ i = .orReg k y ∨ i = .andReg k y ∨ i = .xorReg k y) ∨
      (∃ y, i = .addReg k y ∨ i = .subReg k y ∨ i = .subnReg k y ∨ i = .shrReg k y ∨ i = .shlReg k y) ∨
      i = .ldFromDt k ∨ i = .ldKey k ∨ (∃ x, i = .loadRegs x ∧ k.toNat ≤ x.toNat) ∨
      (k = VF ∧
        ((∃ x y, i = .addReg x y ∨ i = .subReg x y ∨ i = .subnReg x y ∨ i = .shrReg x y ∨ i = .shlReg x y) ∨
          (∃ x, i = .addI x) ∨ ∃ x y n, i = .drw x y n))) ∧
    t.keys = s.keys ∧ t.rnd = s.rnd ∧ t.schedule = s.schedule ∧ t.fresh = s.fresh

/-- 10_state.md, section 3: VF changes only as the flag of the seven flag-writing instructions, which leave 0 or 1 in
it, or as an ordinary destination. -/
def Obligations.FlagHasOnlyItsWriters : Prop :=
  ∀ (i : Instr) (s t : State), exec i s = .next t →
    (((∃ x y, i = .addReg x y ∨ i = .subReg x y ∨ i = .subnReg x y ∨ i = .shrReg x y ∨ i = .shlReg x y) ∨
        (∃ x, i = .addI x) ∨ (∃ x y n, i = .drw x y n)) → t.reg VF = 0 ∨ t.reg VF = 1) ∧
    (t.reg VF ≠ s.reg VF →
      (∃ x y, i = .addReg x y ∨ i = .subReg x y ∨ i = .subnReg x y ∨ i = .shrReg x y ∨ i = .shlReg x y) ∨
      (∃ x, i = .addI x) ∨ (∃ x y n, i = .drw x y n) ∨
      (∃ nn, i = .ldImm VF nn ∨ i = .addImm VF nn ∨ i = .rnd VF nn) ∨
      (∃ y, i = .ldReg VF y ∨ i = .orReg VF y ∨ i = .andReg VF y ∨ i = .xorReg VF y) ∨
      i = .ldFromDt VF ∨ i = .ldKey VF ∨ i = .loadRegs VF)

/-- 40_control_flow.md, section 1: only EX9E, EXA1 and FX0A look at `keys`, and only CXNN at `rnd`: with other inputs
every other instruction does the same. -/
def Obligations.InputsHaveOnlyTheirReaders : Prop :=
  ∀ (i : Instr) (s : State) (keys : KeySet) (rnd : Byte),
    ((∀ x, i ≠ .skp x ∧ i ≠ .sknp x ∧ i ≠ .ldKey x) →
      (∀ t, exec i s = .next t → exec i (s.latch keys s.rnd) = .next (t.latch keys s.rnd)) ∧
      (∀ f, exec i s = .fault f → exec i (s.latch keys s.rnd) = .fault f)) ∧
    ((∀ x nn, i ≠ .rnd x nn) →
      (∀ t, exec i s = .next t → exec i (s.latch s.keys rnd) = .next (t.latch s.keys rnd)) ∧
      (∀ f, exec i s = .fault f → exec i (s.latch s.keys rnd) = .fault f))

/-! ### The invariant -/

/-- The invariant holds after reset. -/
def Obligations.ResetMeetsInvariant : Prop := Inv State.reset

/-- 10_state.md, sections 4 and 6: every step, of any kind, keeps memory canonical, at most 16 return addresses, each
at most 4096, and `pc` at most 0x10FE. The canonical form is the model's; the depth is its choice of the spec's
default (log 5). -/
def Obligations.StepKeepsInvariant : Prop := ∀ s t : State, Inv s → step s = .next t → Inv t
end

