-- ==== Sys2Proof/Laws/Decode.lean ====
section
/-! SUPPORT. The fields of a word written digit by digit, and when a word fits a row of the opcode table. -/

namespace Sys2Proof

variable (a b c d : Nibble)

/-- A word written digit by digit, as a number. -/
theorem toNat_digits (w : Word) (h : w = a ++ b ++ c ++ d) :
    w.toNat = 4096 * a.toNat + 256 * b.toNat + 16 * c.toNat + d.toNat := by
  subst h
  have hb := b.isLt; have hc := c.isLt; have hd := d.isLt
  have e : (a ++ b ++ c ++ d : BitVec (4 + 4 + 4 + 4)).toNat =
      ((a.toNat <<< 4 ||| b.toNat) <<< 4 ||| c.toNat) <<< 4 ||| d.toNat := by
    rw [BitVec.toNat_append, BitVec.toNat_append, BitVec.toNat_append]
  refine e.trans ?_
  rw [← Nat.shiftLeft_add_eq_or_of_lt hb, ← Nat.shiftLeft_add_eq_or_of_lt hc, ← Nat.shiftLeft_add_eq_or_of_lt hd]
  simp only [Nat.shiftLeft_eq]
  omega

theorem fieldOp_toNat (w : Word) : (fieldOp w).toNat = w.toNat / 4096 := by
  have := w.isLt
  simp [fieldOp, Nat.shiftRight_eq_div_pow]; omega

theorem fieldX_toNat (w : Word) : (fieldX w).toNat = w.toNat / 256 % 16 := by
  simp [fieldX, Nat.shiftRight_eq_div_pow]

theorem fieldY_toNat (w : Word) : (fieldY w).toNat = w.toNat / 16 % 16 := by
  simp [fieldY, Nat.shiftRight_eq_div_pow]

theorem fieldN_toNat (w : Word) : (fieldN w).toNat = w.toNat % 16 := by
  simp [fieldN]

@[simp] theorem fieldOp_digits : fieldOp (a ++ b ++ c ++ d) = a := by
  have := toNat_digits a b c d _ rfl
  have ha := a.isLt; have hb := b.isLt; have hc := c.isLt; have hd := d.isLt
  apply BitVec.eq_of_toNat_eq
  rw [fieldOp_toNat]; omega

@[simp] theorem fieldX_digits : fieldX (a ++ b ++ c ++ d) = b := by
  have := toNat_digits a b c d _ rfl
  have ha := a.isLt; have hb := b.isLt; have hc := c.isLt; have hd := d.isLt
  apply BitVec.eq_of_toNat_eq
  rw [fieldX_toNat]; omega

@[simp] theorem fieldY_digits : fieldY (a ++ b ++ c ++ d) = c := by
  have := toNat_digits a b c d _ rfl
  have ha := a.isLt; have hb := b.isLt; have hc := c.isLt; have hd := d.isLt
  apply BitVec.eq_of_toNat_eq
  rw [fieldY_toNat]; omega

@[simp] theorem fieldN_digits : fieldN (a ++ b ++ c ++ d) = d := by
  have := toNat_digits a b c d _ rfl
  have ha := a.isLt; have hb := b.isLt; have hc := c.isLt; have hd := d.isLt
  apply BitVec.eq_of_toNat_eq
  rw [fieldN_toNat]; omega

/-- A word is its four digits (R71). -/
theorem word_digits (w : Word) : w = fieldOp w ++ fieldX w ++ fieldY w ++ fieldN w := by
  apply BitVec.eq_of_toNat_eq
  rw [toNat_digits _ _ _ _ _ rfl, fieldOp_toNat, fieldX_toNat, fieldY_toNat, fieldN_toNat]
  omega

/-- Decoding a word written digit by digit. -/
@[simp] theorem decode_digits : decode (a ++ b ++ c ++ d) = decodeDigits a b c d := by
  simp [decode]

/-- The two digits of a byte immediate. -/
theorem byte_digits (nn : Byte) : nn = (nn.extractLsb' 4 4 ++ nn.extractLsb' 0 4 : BitVec (4 + 4)) := by
  revert nn; decide

/-- The three digits of an address immediate. -/
theorem addr_digits (nnn : Addr) :
    nnn = (nnn.extractLsb' 8 4 ++ nnn.extractLsb' 4 4 ++ nnn.extractLsb' 0 4 : BitVec (4 + 4 + 4)) := by
  have := nnn.isLt
  apply BitVec.eq_of_toNat_eq
  have hb := (nnn.extractLsb' 4 4).isLt; have hc := (nnn.extractLsb' 0 4).isLt
  rw [BitVec.toNat_append, BitVec.toNat_append, ← Nat.shiftLeft_add_eq_or_of_lt hb, ← Nat.shiftLeft_add_eq_or_of_lt hc]
  simp [Nat.shiftRight_eq_div_pow, Nat.shiftLeft_eq]
  omega

/-- A word whose last field is a byte, digit by digit. -/
theorem append_byte (nn : Byte) : (a ++ b ++ nn : Word) = a ++ b ++ nn.extractLsb' 4 4 ++ nn.extractLsb' 0 4 := by
  conv_lhs => rw [byte_digits nn]
  exact (BitVec.append_assoc (x₁ := a ++ b) (x₂ := nn.extractLsb' 4 4) (x₃ := nn.extractLsb' 0 4)).symm

/-- A word whose last field is a byte of two digits. -/
theorem append_byte_digits : (a ++ b ++ (c ++ d) : Word) = a ++ b ++ c ++ d :=
  (BitVec.append_assoc (x₁ := a ++ b) (x₂ := c) (x₃ := d)).symm

/-- A word whose last field is an address of three digits. -/
theorem append_addr_digits : (a ++ (b ++ c ++ d) : Word) = a ++ b ++ c ++ d := by
  apply BitVec.eq_of_toNat_eq
  rw [toNat_digits _ _ _ _ _ rfl]
  have hb := b.isLt; have hc := c.isLt; have hd := d.isLt
  have e : (a ++ (b ++ c ++ d) : BitVec (4 + (4 + 4 + 4))).toNat =
      a.toNat <<< 12 ||| ((b.toNat <<< 4 ||| c.toNat) <<< 4 ||| d.toNat) := by
    rw [BitVec.toNat_append, BitVec.toNat_append, BitVec.toNat_append]
  refine e.trans ?_
  rw [← Nat.shiftLeft_add_eq_or_of_lt hc, ← Nat.shiftLeft_add_eq_or_of_lt hd, ← Nat.shiftLeft_add_eq_or_of_lt]
  · simp only [Nat.shiftLeft_eq]; omega
  · simp only [Nat.shiftLeft_eq]; omega

/-- A word whose last field is an address, digit by digit. -/
theorem append_addr (nnn : Addr) :
    (a ++ nnn : Word) = a ++ nnn.extractLsb' 8 4 ++ nnn.extractLsb' 4 4 ++ nnn.extractLsb' 0 4 := by
  conv_lhs => rw [addr_digits nnn]
  exact append_addr_digits _ _ _ _

variable (a' b' c' d' : Nibble)

/-- Words written digit by digit are equal digit by digit. -/
theorem digits_inj : (a ++ b ++ c ++ d : Word) = a' ++ b' ++ c' ++ d' ↔ a = a' ∧ b = b' ∧ c = c' ∧ d = d' := by
  constructor
  · intro h
    exact ⟨by simpa using congrArg fieldOp h, by simpa using congrArg fieldX h, by simpa using congrArg fieldY h,
      by simpa using congrArg fieldN h⟩
  · rintro ⟨rfl, rfl, rfl, rfl⟩; rfl

/-- A mask acts digit by digit. -/
theorem digits_and :
    (a ++ b ++ c ++ d : Word) &&& (a' ++ b' ++ c' ++ d') = (a &&& a') ++ (b &&& b') ++ (c &&& c') ++ (d &&& d') := by
  have h : ((a ++ b ++ c ++ d : BitVec (4 + 4 + 4 + 4)) &&& (a' ++ b' ++ c' ++ d')) =
      (a &&& a') ++ (b &&& b') ++ (c &&& c') ++ (d &&& d') := by
    rw [BitVec.and_append, BitVec.and_append, BitVec.and_append]
  exact h

end Sys2Proof
end

