-- ==== Sys2Proof/Laws/State.lean ====
section
/-! SUPPORT. One lemma per field of State per update, so that no proof unfolds a record update. -/

namespace Sys2Proof.Machine

variable (s : State)


@[simp] theorem State.setReg_pc (k : Reg) (b : Byte) : (s.setReg k b).pc = s.pc := rfl
@[simp] theorem State.setReg_i (k : Reg) (b : Byte) : (s.setReg k b).i = s.i := rfl
@[simp] theorem State.setReg_memory (k : Reg) (b : Byte) : (s.setReg k b).memory = s.memory := rfl
@[simp] theorem State.setReg_stack (k : Reg) (b : Byte) : (s.setReg k b).stack = s.stack := rfl
@[simp] theorem State.setReg_dt (k : Reg) (b : Byte) : (s.setReg k b).dt = s.dt := rfl
@[simp] theorem State.setReg_st (k : Reg) (b : Byte) : (s.setReg k b).st = s.st := rfl
@[simp] theorem State.setReg_fb (k : Reg) (b : Byte) : (s.setReg k b).fb = s.fb := rfl
@[simp] theorem State.setReg_keys (k : Reg) (b : Byte) : (s.setReg k b).keys = s.keys := rfl
@[simp] theorem State.setReg_rnd (k : Reg) (b : Byte) : (s.setReg k b).rnd = s.rnd := rfl
@[simp] theorem State.setReg_schedule (k : Reg) (b : Byte) : (s.setReg k b).schedule = s.schedule := rfl
@[simp] theorem State.setReg_fresh (k : Reg) (b : Byte) : (s.setReg k b).fresh = s.fresh := rfl

@[simp] theorem State.setRegs_pc (l : List Byte) : (s.setRegs l).pc = s.pc := rfl
@[simp] theorem State.setRegs_i (l : List Byte) : (s.setRegs l).i = s.i := rfl
@[simp] theorem State.setRegs_memory (l : List Byte) : (s.setRegs l).memory = s.memory := rfl
@[simp] theorem State.setRegs_stack (l : List Byte) : (s.setRegs l).stack = s.stack := rfl
@[simp] theorem State.setRegs_dt (l : List Byte) : (s.setRegs l).dt = s.dt := rfl
@[simp] theorem State.setRegs_st (l : List Byte) : (s.setRegs l).st = s.st := rfl
@[simp] theorem State.setRegs_fb (l : List Byte) : (s.setRegs l).fb = s.fb := rfl
@[simp] theorem State.setRegs_keys (l : List Byte) : (s.setRegs l).keys = s.keys := rfl
@[simp] theorem State.setRegs_rnd (l : List Byte) : (s.setRegs l).rnd = s.rnd := rfl
@[simp] theorem State.setRegs_schedule (l : List Byte) : (s.setRegs l).schedule = s.schedule := rfl
@[simp] theorem State.setRegs_fresh (l : List Byte) : (s.setRegs l).fresh = s.fresh := rfl

@[simp] theorem State.setPc_v (a : Word) : (s.setPc a).v = s.v := rfl
@[simp] theorem State.setPc_pc (a : Word) : (s.setPc a).pc = a := rfl
@[simp] theorem State.setPc_i (a : Word) : (s.setPc a).i = s.i := rfl
@[simp] theorem State.setPc_memory (a : Word) : (s.setPc a).memory = s.memory := rfl
@[simp] theorem State.setPc_stack (a : Word) : (s.setPc a).stack = s.stack := rfl
@[simp] theorem State.setPc_dt (a : Word) : (s.setPc a).dt = s.dt := rfl
@[simp] theorem State.setPc_st (a : Word) : (s.setPc a).st = s.st := rfl
@[simp] theorem State.setPc_fb (a : Word) : (s.setPc a).fb = s.fb := rfl
@[simp] theorem State.setPc_keys (a : Word) : (s.setPc a).keys = s.keys := rfl
@[simp] theorem State.setPc_rnd (a : Word) : (s.setPc a).rnd = s.rnd := rfl
@[simp] theorem State.setPc_schedule (a : Word) : (s.setPc a).schedule = s.schedule := rfl
@[simp] theorem State.setPc_fresh (a : Word) : (s.setPc a).fresh = s.fresh := rfl
@[simp] theorem State.setPc_reg (a : Word) (j : Reg) : (s.setPc a).reg j = s.reg j := rfl

@[simp] theorem State.setI_v (a : Word) : (s.setI a).v = s.v := rfl
@[simp] theorem State.setI_pc (a : Word) : (s.setI a).pc = s.pc := rfl
@[simp] theorem State.setI_i (a : Word) : (s.setI a).i = a := rfl
@[simp] theorem State.setI_memory (a : Word) : (s.setI a).memory = s.memory := rfl
@[simp] theorem State.setI_stack (a : Word) : (s.setI a).stack = s.stack := rfl
@[simp] theorem State.setI_dt (a : Word) : (s.setI a).dt = s.dt := rfl
@[simp] theorem State.setI_st (a : Word) : (s.setI a).st = s.st := rfl
@[simp] theorem State.setI_fb (a : Word) : (s.setI a).fb = s.fb := rfl
@[simp] theorem State.setI_keys (a : Word) : (s.setI a).keys = s.keys := rfl
@[simp] theorem State.setI_rnd (a : Word) : (s.setI a).rnd = s.rnd := rfl
@[simp] theorem State.setI_schedule (a : Word) : (s.setI a).schedule = s.schedule := rfl
@[simp] theorem State.setI_fresh (a : Word) : (s.setI a).fresh = s.fresh := rfl
@[simp] theorem State.setI_reg (a : Word) (j : Reg) : (s.setI a).reg j = s.reg j := rfl

@[simp] theorem State.setDt_v (b : Byte) : (s.setDt b).v = s.v := rfl
@[simp] theorem State.setDt_pc (b : Byte) : (s.setDt b).pc = s.pc := rfl
@[simp] theorem State.setDt_i (b : Byte) : (s.setDt b).i = s.i := rfl
@[simp] theorem State.setDt_memory (b : Byte) : (s.setDt b).memory = s.memory := rfl
@[simp] theorem State.setDt_stack (b : Byte) : (s.setDt b).stack = s.stack := rfl
@[simp] theorem State.setDt_dt (b : Byte) : (s.setDt b).dt = b := rfl
@[simp] theorem State.setDt_st (b : Byte) : (s.setDt b).st = s.st := rfl
@[simp] theorem State.setDt_fb (b : Byte) : (s.setDt b).fb = s.fb := rfl
@[simp] theorem State.setDt_keys (b : Byte) : (s.setDt b).keys = s.keys := rfl
@[simp] theorem State.setDt_rnd (b : Byte) : (s.setDt b).rnd = s.rnd := rfl
@[simp] theorem State.setDt_schedule (b : Byte) : (s.setDt b).schedule = s.schedule := rfl
@[simp] theorem State.setDt_fresh (b : Byte) : (s.setDt b).fresh = s.fresh := rfl
@[simp] theorem State.setDt_reg (b : Byte) (j : Reg) : (s.setDt b).reg j = s.reg j := rfl

@[simp] theorem State.setSt_v (b : Byte) : (s.setSt b).v = s.v := rfl
@[simp] theorem State.setSt_pc (b : Byte) : (s.setSt b).pc = s.pc := rfl
@[simp] theorem State.setSt_i (b : Byte) : (s.setSt b).i = s.i := rfl
@[simp] theorem State.setSt_memory (b : Byte) : (s.setSt b).memory = s.memory := rfl
@[simp] theorem State.setSt_stack (b : Byte) : (s.setSt b).stack = s.stack := rfl
@[simp] theorem State.setSt_dt (b : Byte) : (s.setSt b).dt = s.dt := rfl
@[simp] theorem State.setSt_st (b : Byte) : (s.setSt b).st = b := rfl
@[simp] theorem State.setSt_fb (b : Byte) : (s.setSt b).fb = s.fb := rfl
@[simp] theorem State.setSt_keys (b : Byte) : (s.setSt b).keys = s.keys := rfl
@[simp] theorem State.setSt_rnd (b : Byte) : (s.setSt b).rnd = s.rnd := rfl
@[simp] theorem State.setSt_schedule (b : Byte) : (s.setSt b).schedule = s.schedule := rfl
@[simp] theorem State.setSt_fresh (b : Byte) : (s.setSt b).fresh = s.fresh := rfl
@[simp] theorem State.setSt_reg (b : Byte) (j : Reg) : (s.setSt b).reg j = s.reg j := rfl

@[simp] theorem State.setMemory_v (m : Memory) : (s.setMemory m).v = s.v := rfl
@[simp] theorem State.setMemory_pc (m : Memory) : (s.setMemory m).pc = s.pc := rfl
@[simp] theorem State.setMemory_i (m : Memory) : (s.setMemory m).i = s.i := rfl
@[simp] theorem State.setMemory_memory (m : Memory) : (s.setMemory m).memory = m := rfl
@[simp] theorem State.setMemory_stack (m : Memory) : (s.setMemory m).stack = s.stack := rfl
@[simp] theorem State.setMemory_dt (m : Memory) : (s.setMemory m).dt = s.dt := rfl
@[simp] theorem State.setMemory_st (m : Memory) : (s.setMemory m).st = s.st := rfl
@[simp] theorem State.setMemory_fb (m : Memory) : (s.setMemory m).fb = s.fb := rfl
@[simp] theorem State.setMemory_keys (m : Memory) : (s.setMemory m).keys = s.keys := rfl
@[simp] theorem State.setMemory_rnd (m : Memory) : (s.setMemory m).rnd = s.rnd := rfl
@[simp] theorem State.setMemory_schedule (m : Memory) : (s.setMemory m).schedule = s.schedule := rfl
@[simp] theorem State.setMemory_fresh (m : Memory) : (s.setMemory m).fresh = s.fresh := rfl
@[simp] theorem State.setMemory_reg (m : Memory) (j : Reg) : (s.setMemory m).reg j = s.reg j := rfl

@[simp] theorem State.setFb_v (f : Framebuffer) : (s.setFb f).v = s.v := rfl
@[simp] theorem State.setFb_pc (f : Framebuffer) : (s.setFb f).pc = s.pc := rfl
@[simp] theorem State.setFb_i (f : Framebuffer) : (s.setFb f).i = s.i := rfl
@[simp] theorem State.setFb_memory (f : Framebuffer) : (s.setFb f).memory = s.memory := rfl
@[simp] theorem State.setFb_stack (f : Framebuffer) : (s.setFb f).stack = s.stack := rfl
@[simp] theorem State.setFb_dt (f : Framebuffer) : (s.setFb f).dt = s.dt := rfl
@[simp] theorem State.setFb_st (f : Framebuffer) : (s.setFb f).st = s.st := rfl
@[simp] theorem State.setFb_fb (f : Framebuffer) : (s.setFb f).fb = f := rfl
@[simp] theorem State.setFb_keys (f : Framebuffer) : (s.setFb f).keys = s.keys := rfl
@[simp] theorem State.setFb_rnd (f : Framebuffer) : (s.setFb f).rnd = s.rnd := rfl
@[simp] theorem State.setFb_schedule (f : Framebuffer) : (s.setFb f).schedule = s.schedule := rfl
@[simp] theorem State.setFb_fresh (f : Framebuffer) : (s.setFb f).fresh = s.fresh := rfl
@[simp] theorem State.setFb_reg (f : Framebuffer) (j : Reg) : (s.setFb f).reg j = s.reg j := rfl

@[simp] theorem State.setStack_v (l : List Word) : (s.setStack l).v = s.v := rfl
@[simp] theorem State.setStack_pc (l : List Word) : (s.setStack l).pc = s.pc := rfl
@[simp] theorem State.setStack_i (l : List Word) : (s.setStack l).i = s.i := rfl
@[simp] theorem State.setStack_memory (l : List Word) : (s.setStack l).memory = s.memory := rfl
@[simp] theorem State.setStack_stack (l : List Word) : (s.setStack l).stack = l := rfl
@[simp] theorem State.setStack_dt (l : List Word) : (s.setStack l).dt = s.dt := rfl
@[simp] theorem State.setStack_st (l : List Word) : (s.setStack l).st = s.st := rfl
@[simp] theorem State.setStack_fb (l : List Word) : (s.setStack l).fb = s.fb := rfl
@[simp] theorem State.setStack_keys (l : List Word) : (s.setStack l).keys = s.keys := rfl
@[simp] theorem State.setStack_rnd (l : List Word) : (s.setStack l).rnd = s.rnd := rfl
@[simp] theorem State.setStack_schedule (l : List Word) : (s.setStack l).schedule = s.schedule := rfl
@[simp] theorem State.setStack_fresh (l : List Word) : (s.setStack l).fresh = s.fresh := rfl
@[simp] theorem State.setStack_reg (l : List Word) (j : Reg) : (s.setStack l).reg j = s.reg j := rfl

@[simp] theorem State.latch_v (ks : KeySet) (r : Byte) : (s.latch ks r).v = s.v := rfl
@[simp] theorem State.latch_pc (ks : KeySet) (r : Byte) : (s.latch ks r).pc = s.pc := rfl
@[simp] theorem State.latch_i (ks : KeySet) (r : Byte) : (s.latch ks r).i = s.i := rfl
@[simp] theorem State.latch_memory (ks : KeySet) (r : Byte) : (s.latch ks r).memory = s.memory := rfl
@[simp] theorem State.latch_stack (ks : KeySet) (r : Byte) : (s.latch ks r).stack = s.stack := rfl
@[simp] theorem State.latch_dt (ks : KeySet) (r : Byte) : (s.latch ks r).dt = s.dt := rfl
@[simp] theorem State.latch_st (ks : KeySet) (r : Byte) : (s.latch ks r).st = s.st := rfl
@[simp] theorem State.latch_fb (ks : KeySet) (r : Byte) : (s.latch ks r).fb = s.fb := rfl
@[simp] theorem State.latch_keys (ks : KeySet) (r : Byte) : (s.latch ks r).keys = ks := rfl
@[simp] theorem State.latch_rnd (ks : KeySet) (r : Byte) : (s.latch ks r).rnd = r := rfl
@[simp] theorem State.latch_schedule (ks : KeySet) (r : Byte) : (s.latch ks r).schedule = s.schedule := rfl
@[simp] theorem State.latch_fresh (ks : KeySet) (r : Byte) : (s.latch ks r).fresh = s.fresh := rfl
@[simp] theorem State.latch_reg (ks : KeySet) (r : Byte) (j : Reg) : (s.latch ks r).reg j = s.reg j := rfl

@[simp] theorem State.setReg_reg (k j : Reg) (b : Byte) :
    (s.setReg k b).reg j = if j = k then b else s.reg j := by
  simp only [State.reg, State.setReg, Vector.getElem_set, eq_comm (a := j), BitVec.toNat_inj]

/-- The flag write as a register write, so that the register lemmas apply. -/
@[simp] theorem State.setFlag_eq (c : Bool) : s.setFlag c = s.setReg VF (flagByte c) := rfl

@[simp] theorem State.advance_eq : s.advance = s.setPc (s.pc + 2) := rfl

@[simp] theorem State.skipIf_eq (c : Bool) : s.skipIf c = s.setPc (if c then s.pc + 2 else s.pc) := rfl

@[simp] theorem State.tick_eq : s.tick = (s.setDt (countDown s.dt)).setSt (countDown s.st) := rfl

@[simp] theorem State.load_eq (a : Addr) (b : Byte) : s.load a b = s.setMemory (s.memory.write a.toNat b) := rfl

@[simp] theorem State.regList_length : s.regList.length = 16 := by simp [State.regList]

theorem State.regList_getElem? (k : Reg) : s.regList[k.toNat]? = some (s.reg k) := by
  have h : k.toNat < 16 := k.isLt
  simp [State.regList, State.reg, h]

/-- A flag is 0 or 1 (R22). -/
theorem flagByte_toNat (c : Bool) : (flagByte c).toNat = if c then 1 else 0 := by cases c <;> rfl

end Sys2Proof.Machine
end

