-- ==== Sys2Proof/Laws/Control.lean ====
section
/-! SUPPORT. What each shared operation that may fault can do, and what one step can do. -/

namespace Sys2Proof.Machine

variable {s t u : State}

/-- A guarded access completes with what it was given, and only inside memory (R65). -/
theorem State.guarded_eq_next {n : Nat} :
    s.guarded n t = .next u ↔ u = t ∧ (n = 0 ∨ s.i.toNat + n ≤ 4096) := by
  by_cases h : n ≠ 0 ∧ s.effAddr (n - 1) > 4095
  · have h' := h
    simp only [State.effAddr] at h'
    simp only [State.guarded, if_pos h, raiseFault, reduceCtorEq, false_iff]
    omega
  · have h' := h
    simp only [State.effAddr] at h'
    simp only [State.guarded, if_neg h, Host.Outcome.next.injEq, eq_comm (a := t), iff_self_and]
    omega

/-- A guarded access faults exactly when its highest address is beyond 4095 (R65, R181). -/
theorem State.guarded_eq_fault {n : Nat} {f : Fault} :
    s.guarded n t = .fault f ↔ n ≠ 0 ∧ 4096 < s.i.toNat + n ∧ f = .memOutOfBounds (s.i.toNat + (n - 1)) := by
  by_cases h : n ≠ 0 ∧ s.effAddr (n - 1) > 4095
  · have hlt : 4096 < s.i.toNat + n := by
      have h' := h.2
      simp only [State.effAddr] at h'
      omega
    have e : s.guarded n t = .fault (.memOutOfBounds (s.i.toNat + (n - 1))) := if_pos h
    rw [e, Host.Outcome.fault.injEq]
    exact ⟨fun e => ⟨h.1, hlt, e.symm⟩, fun e => e.2.2.symm⟩
  · have h' := h
    simp only [State.effAddr] at h'
    simp only [State.guarded, if_neg h, reduceCtorEq, false_iff]
    rintro ⟨h1, h2, -⟩
    omega

/-- A push either goes on with the entry on top, with room for it, or is StackOverflow (R93). -/
theorem State.push_cases (e : Word) (k : State → Result) :
    (s.stack.length < 16 ∧ s.push e k = k (s.setStack (e :: s.stack))) ∨
      (16 ≤ s.stack.length ∧ s.push e k = .fault .stackOverflow) := by
  by_cases h : 16 ≤ s.stack.length
  · exact .inr ⟨h, by simp [State.push, stackFull, stackDepth, raiseFault, h]⟩
  · exact .inl ⟨by omega, by simp [State.push, stackFull, stackDepth, h]⟩

/-- A pop either goes on with the top entry removed or is StackUnderflow (R91). -/
theorem State.pop_cases (k : Word → State → Result) :
    (∃ e rest, s.stack = e :: rest ∧ s.pop k = k e (s.setStack rest)) ∨
      (s.stack = [] ∧ s.pop k = .fault .stackUnderflow) := by
  cases h : s.stack with
  | nil => exact .inr ⟨rfl, by simp [State.pop, h, raiseFault]⟩
  | cons e rest => exact .inl ⟨e, rest, rfl, by simp [State.pop, h]⟩

/-- A fetch reads the word at `pc`, and only for `pc` up to 4094 (R53). -/
theorem State.fetch_eq_some {w : Word} :
    s.fetch = some w ↔ s.pc.toNat ≤ 4094 ∧ w = s.memory.readWord s.pc.toNat := by
  by_cases h : s.pc.toNat > 4094
  · simp [State.fetch, h]
  · simp [State.fetch, h, eq_comm (a := w)]; omega

theorem State.fetch_eq_none : s.fetch = none ↔ 4094 < s.pc.toNat := by
  by_cases h : s.pc.toNat > 4094
  · simp [State.fetch, h]
  · simp [State.fetch, h]

/-- A STEP either faults at fetch, or applies the effect of the word at `pc` to the advanced state (R90). -/
theorem stepInstr_cases (keys : KeySet) (rnd : Byte) :
    (4094 < s.pc.toNat ∧ stepInstr keys rnd s = .fault (.fetchOutOfBounds s.pc.toNat)) ∨
      (s.pc.toNat ≤ 4094 ∧
        ((∃ i, decode (s.memory.readWord s.pc.toNat) = .instr i ∧
            stepInstr keys rnd s = exec i ((s.latch keys rnd).setPc (s.pc + 2))) ∨
          (∃ w, decode (s.memory.readWord s.pc.toNat) = .unknown w ∧
            stepInstr keys rnd s = .next ((s.latch keys rnd).setPc (s.pc + 2))))) := by
  cases hf : s.fetch with
  | none => exact .inl ⟨State.fetch_eq_none.1 hf, by simp [stepInstr, hf, raiseFault]⟩
  | some w =>
    obtain ⟨h, rfl⟩ := State.fetch_eq_some.1 hf
    refine .inr ⟨h, ?_⟩
    cases hd : decode (s.memory.readWord s.pc.toNat) with
    | instr i => exact .inl ⟨i, rfl, by simp [stepInstr, hf, hd, execDecoded]⟩
    | unknown w => exact .inr ⟨w, rfl, by simp [stepInstr, hf, hd, execDecoded, execUnknown]⟩

/-- Taking an operation from the schedule leaves Machine State as it was. -/
theorem State.nextOp_machine (s : State) :
    s.nextOp.2.v = s.v ∧ s.nextOp.2.pc = s.pc ∧ s.nextOp.2.i = s.i ∧ s.nextOp.2.memory = s.memory ∧
      s.nextOp.2.stack = s.stack ∧ s.nextOp.2.dt = s.dt ∧ s.nextOp.2.st = s.st ∧ s.nextOp.2.fb = s.fb := by
  cases h : s.schedule <;> simp [State.nextOp, h]

/-- The LOADs of an image keep a launch open (R212). -/
theorem loadsAtLaunch_loadOps (a : Nat) (image : List Byte) (rest : List HostOp) :
    loadsAtLaunch true (loadOps a image ++ rest) = loadsAtLaunch true rest := by
  induction image generalizing a with
  | nil => rfl
  | cons b bs ih => simpa [loadOps, loadsAtLaunch, HostOp.launching] using ih (a + 1)

/-- Taking the next operation keeps the launch premise on LOAD, and outside a launch that operation is no LOAD (R212). -/
theorem loadsAtLaunch_nextOp {now : Bool} (h : loadsAtLaunch now s.schedule = true) :
    loadsAtLaunch (s.nextOp.1.launching now) s.nextOp.2.schedule = true ∧
      (now = false → ∀ a b, s.nextOp.1 ≠ .load a b) := by
  cases hs : s.schedule with
  | nil => simp [State.nextOp, hs, loadsAtLaunch]
  | cons op rest => cases op <;> cases now <;> simp_all [State.nextOp, loadsAtLaunch]

/-- What one step can do: the host's next operation and nothing else (R8). -/
theorem step_cases (s : State) :
    (∃ keys rnd, s.nextOp.1 = .step keys rnd ∧ step s = stepInstr keys rnd s.nextOp.2) ∨
      (s.nextOp.1 = .tick ∧ step s = .next s.nextOp.2.tick) ∨
      (∃ a b, s.nextOp.1 = .load a b ∧ step s = .next (s.nextOp.2.load a b)) ∨
      (s.nextOp.1 = .reset ∧ step s = .next s.nextOp.2.resetMachine) := by
  cases h : s.nextOp.1 with
  | step keys rnd => exact .inl ⟨keys, rnd, rfl, by simp [step, h, applyOp]⟩
  | tick => exact .inr (.inl ⟨rfl, by simp [step, h, applyOp]⟩)
  | load a b => exact .inr (.inr (.inl ⟨a, b, rfl, by simp [step, h, applyOp]⟩))
  | reset => exact .inr (.inr (.inr ⟨rfl, by simp [step, h, applyOp]⟩))

end Sys2Proof.Machine
end

