-- ==== Sys2Proof/Laws/Memory.lean ====
section
/-! SUPPORT. Memory: a write is read back and leaves every other byte, every operation keeps the canonical form, and
what block transfers read and write. -/

namespace Sys2Proof.Machine

/-- The canonical form of a non-empty memory, spelled out. -/
theorem Memory.wfFrom_cons {lo a : Nat} {b : Byte} {rest : Memory} :
    Memory.wfFrom lo ((a, b) :: rest) = true ↔
      lo ≤ a ∧ a < 4096 ∧ b ≠ Memory.unlisted a ∧ Memory.wfFrom (a + 1) rest = true := by
  simp [Memory.wfFrom, Config.memSize, and_assoc]

theorem Memory.wfFrom_mono {m : Memory} {lo lo' : Nat} (h : Memory.wfFrom lo m = true) (hl : lo' ≤ lo) :
    Memory.wfFrom lo' m = true := by
  cases m with
  | nil => rfl
  | cons c rest =>
    obtain ⟨h1, h2⟩ := Memory.wfFrom_cons.1 h
    exact Memory.wfFrom_cons.2 ⟨by omega, h2⟩

/-- An address below every listed one reads as its reset byte. -/
theorem Memory.read_below {m : Memory} {lo a : Nat} (h : Memory.wfFrom lo m = true) (ha : a < lo) :
    m.read a = Memory.unlisted a := by
  induction m generalizing lo with
  | nil => rfl
  | cons c rest ih =>
    obtain ⟨h1, _, _, h4⟩ := Memory.wfFrom_cons.1 h
    have hne : c.1 ≠ a := by omega
    simpa [Memory.read, hne] using ih h4 (by omega)

theorem Memory.read_cons (k : Nat) (x : Byte) (rest : Memory) (a : Nat) :
    Memory.read ((k, x) :: rest) a = if k = a then x else Memory.read rest a := rfl

theorem Memory.read_write_from {m : Memory} {lo : Nat} (h : Memory.wfFrom lo m = true) (a a' : Nat) (b : Byte) :
    (m.write a b).read a' = if a' = a then b else m.read a' := by
  induction m generalizing lo with
  | nil =>
    simp only [Memory.write]
    by_cases hb : b = Memory.unlisted a <;> by_cases ha : a' = a
    · subst ha; simp [hb, Memory.read]
    · simp [hb, ha]
    · subst ha; simp [hb, Memory.read_cons]
    · simp [hb, ha, Memory.read_cons, Ne.symm ha]
  | cons c rest ih =>
    obtain ⟨k, x⟩ := c
    obtain ⟨_, _, _, h4⟩ := Memory.wfFrom_cons.1 h
    simp only [Memory.write]
    by_cases hlt : a < k
    · by_cases hb : b = Memory.unlisted a
      · by_cases ha : a' = a
        · subst ha
          have hr := Memory.read_below h4 (by omega : a' < k + 1)
          have hne : k ≠ a' := by omega
          simp [hlt, hb, Memory.read_cons, hne, hr]
        · simp [hlt, hb, ha]
      · by_cases ha : a' = a
        · subst ha; simp [hlt, hb, Memory.read_cons]
        · simp [hlt, hb, ha, Memory.read_cons a, Ne.symm ha]
    · by_cases hk : a = k
      · subst hk
        have hr := Memory.read_below h4 (by omega : a < a + 1)
        by_cases hb : b = Memory.unlisted a <;> by_cases ha : a' = a
        · subst ha; simp [hb, hr]
        · simp [hb, ha, Memory.read_cons, Ne.symm ha]
        · subst ha; simp [hb, Memory.read_cons]
        · simp [hb, ha, Memory.read_cons, Ne.symm ha]
      · have hi := ih h4
        by_cases hka : k = a'
        · subst hka; simp [hlt, hk, Memory.read_cons, Ne.symm hk]
        · simp [hlt, hk, Memory.read_cons, hka, hi]

/-- A read after a write: the byte written at that address, the old byte at every other (R50). -/
theorem Memory.read_write {m : Memory} (h : m.wf = true) (a a' : Nat) (b : Byte) :
    (m.write a b).read a' = if a' = a then b else m.read a' := Memory.read_write_from h a a' b

theorem Memory.wfFrom_write {m : Memory} {lo a : Nat} (h : Memory.wfFrom lo m = true) (hl : lo ≤ a) (ha : a < 4096)
    (b : Byte) : Memory.wfFrom lo (m.write a b) = true := by
  induction m generalizing lo with
  | nil => by_cases hb : b = Memory.unlisted a <;> simp [Memory.write, hb, Memory.wfFrom, hl, ha]
  | cons c rest ih =>
    obtain ⟨k, x⟩ := c
    obtain ⟨h1, h2, h3, h4⟩ := Memory.wfFrom_cons.1 h
    by_cases hlt : a < k
    · by_cases hb : b = Memory.unlisted a
      · simpa [Memory.write, hlt, hb] using h
      · simpa [Memory.write, hlt, hb] using
          Memory.wfFrom_cons.2 ⟨hl, ha, hb, Memory.wfFrom_cons.2 ⟨by omega, h2, h3, h4⟩⟩
    · by_cases hk : a = k
      · subst hk
        by_cases hb : b = Memory.unlisted a
        · simpa [Memory.write, hb] using Memory.wfFrom_mono h4 (by omega)
        · simpa [Memory.write, hb] using Memory.wfFrom_cons.2 ⟨hl, ha, hb, h4⟩
      · simpa [Memory.write, hlt, hk] using Memory.wfFrom_cons.2 ⟨h1, h2, h3, ih h4 (by omega)⟩

/-- A write of one byte of memory keeps the canonical form. -/
theorem Memory.wf_write {m : Memory} (h : m.wf = true) {a : Nat} (ha : a < 4096) (b : Byte) :
    (m.write a b).wf = true := Memory.wfFrom_write h (Nat.zero_le a) ha b

/-- A block store inside memory keeps the canonical form. -/
theorem Memory.wf_storeBlock {m : Memory} (h : m.wf = true) {a : Nat} {bs : List Byte}
    (ha : a + bs.length ≤ 4096) : (m.storeBlock a bs).wf = true := by
  induction bs generalizing m a with
  | nil => exact h
  | cons b bs ih =>
    simp only [List.length_cons] at ha
    exact ih (Memory.wf_write h (by omega) b) (by omega)

/-- What a block store leaves at every address (R57). -/
theorem Memory.read_storeBlock {m : Memory} (h : m.wf = true) {a : Nat} {bs : List Byte}
    (ha : a + bs.length ≤ 4096) (a' : Nat) :
    (m.storeBlock a bs).read a' = if a ≤ a' then (bs[a' - a]?).getD (m.read a') else m.read a' := by
  induction bs generalizing m a with
  | nil => simp [Memory.storeBlock]
  | cons b bs ih =>
    simp only [List.length_cons] at ha
    rw [Memory.storeBlock, ih (Memory.wf_write h (by omega) b) (by omega), Memory.read_write h]
    by_cases h1 : a' = a
    · subst h1; simp
    · by_cases h2 : a + 1 ≤ a'
      · have h3 : a' - a = (a' - (a + 1)) + 1 := by omega
        simp [h1, h2, h3, (by omega : a ≤ a')]
      · have h3 : ¬ a ≤ a' := by omega
        simp only [h1, h2, h3, if_false]

@[simp] theorem Memory.loadBlock_length (m : Memory) (a n : Nat) : (m.loadBlock a n).length = n := by
  simp [Memory.loadBlock]

/-- What a block load reads (R55). -/
theorem Memory.loadBlock_getElem? (m : Memory) (a n k : Nat) :
    (m.loadBlock a n)[k]? = if k < n then some (m.read (a + k)) else none := by
  by_cases h : k < n <;> simp [Memory.loadBlock, h]

/-- Reset memory has the canonical form. -/
theorem Memory.wf_nil : Memory.wf [] = true := rfl

end Sys2Proof.Machine
end

