-- ==== Sys2Proof/Laws/Framebuffer.lean ====
section
/-! SUPPORT. The framebuffer: what a toggle and a whole sprite do to each pixel and to the collision bit (R151 to
R153). -/

namespace Sys2Proof.Machine

/-- The set bits of a sprite as pixels: whether (x, y) is turned over when the rows `sprite` are drawn from (x0, y0);
columns beyond 63 are clipped, rows are not (R152). -/
def spriteBit (sprite : List Byte) (x0 y0 x y : Nat) : Bool :=
  decide (x0 ≤ x ∧ x < x0 + 8 ∧ x ≤ 63 ∧ y0 ≤ y) &&
    (match sprite[y - y0]? with
     | none => false
     | some byte => byte.getLsbD (7 - (x - x0)))

/-- Two framebuffers with the same pixels are equal. -/
theorem Framebuffer.ext_pixel {f g : Framebuffer} (h : ∀ x y, x < 64 → y < 46 → f.pixel x y = g.pixel x y) :
    f = g := by
  ext y hy x hx
  simpa [Framebuffer.pixel, hx, hy] using h x y hx hy

@[simp] theorem blankFb_pixel (x y : Nat) : Framebuffer.pixel blankFb x y = false := by
  by_cases hy : y < 46 <;> by_cases hx : x < 64 <;> simp [Framebuffer.pixel, blankFb, hx, hy]

/-- A toggle turns over its own pixel, on the grid, and no other. -/
theorem Framebuffer.pixel_toggle (f : Framebuffer) (x y x' y' : Nat) :
    (f.toggle x y).pixel x' y' =
      if x' = x ∧ y' = y ∧ x < 64 ∧ y < 46 then !f.pixel x y else f.pixel x' y' := by
  by_cases hy : y < 46
  · by_cases hyy : y' = y
    · subst hyy
      by_cases hx : x < 64
      · by_cases hxx : x' = x
        · subst hxx; simp [Framebuffer.toggle, Framebuffer.pixel, hx, hy]
        · simp [Framebuffer.toggle, Framebuffer.pixel, hy, hxx, Ne.symm hxx]
      · have : f.toggle x y' = f := by
          ext a ha b hb
          by_cases hay : y' = a
          · subst hay
            have hbx : x ≠ b := fun e => hx (e ▸ hb)
            simp [Framebuffer.toggle, hy, hbx]
          · simp [Framebuffer.toggle, hy, hay]
        simp [this, hx]
    · simp [Framebuffer.toggle, Framebuffer.pixel, hy, hyy, Ne.symm hyy]
  · simp [Framebuffer.toggle, hy]

/-- Whether column `x` is turned over by one sprite row drawn from column `x0` over the listed columns. -/
def rowBit (byte : Byte) (x0 : Nat) (cols : List Nat) (x : Nat) : Bool :=
  decide (x0 ≤ x ∧ x ≤ 63 ∧ x - x0 ∈ cols) && byte.getLsbD (7 - (x - x0))

theorem rowBit_iff (byte : Byte) (x0 : Nat) (cols : List Nat) (x : Nat) :
    rowBit byte x0 cols x = true ↔ ∃ c ∈ cols, x = x0 + c ∧ x ≤ 63 ∧ byte.getLsbD (7 - c) = true := by
  constructor
  · intro h
    simp only [rowBit, Bool.and_eq_true, decide_eq_true_eq] at h
    exact ⟨x - x0, h.1.2.2, by omega, h.1.2.1, h.2⟩
  · rintro ⟨c, hc, rfl, h1, h2⟩
    simp [rowBit, h1, h2, hc]

theorem rowBit_cons (byte : Byte) (x0 c : Nat) (cs : List Nat) (x : Nat) :
    rowBit byte x0 (c :: cs) x = true ↔
      (x = x0 + c ∧ x ≤ 63 ∧ byte.getLsbD (7 - c) = true) ∨ rowBit byte x0 cs x = true := by
  simp only [rowBit_iff, List.mem_cons, exists_eq_or_imp]

/-- One sprite row turns over exactly its set, unclipped columns; over ascending columns the break of R151 and the
test of R152 (b) are the same. -/
theorem Canvas.drawRow_pixel (byte : Byte) (x0 y : Nat) (hy : y < 46) (cols : List Nat)
    (hc : cols.Pairwise (· < ·)) (d : Canvas) (x' y' : Nat) :
    (d.drawRow byte x0 y cols).fb.pixel x' y' =
      (d.fb.pixel x' y' ^^ (decide (y' = y) && rowBit byte x0 cols x')) := by
  induction cols generalizing d with
  | nil => simp [Canvas.drawRow, rowBit]
  | cons c cs ih =>
    obtain ⟨hlt, hcs⟩ := List.pairwise_cons.1 hc
    have hcons := rowBit_cons byte x0 c cs x'
    by_cases hb : byte.getLsbD (7 - c) = true
    · by_cases hx : x0 + c > 63
      · have hno : rowBit byte x0 (c :: cs) x' = false := by
          rw [Bool.eq_false_iff, ne_eq, rowBit_iff]
          rintro ⟨k, hk, rfl, h1, -⟩
          rcases List.mem_cons.1 hk with rfl | hk
          · omega
          · have := hlt k hk; omega
        simp [Canvas.drawRow, hb, hx, hno]
      · rw [Canvas.drawRow, if_pos hb, if_neg hx, ih hcs]
        simp only [Canvas.plot, Framebuffer.pixel_toggle]
        by_cases hxy : x' = x0 + c ∧ y' = y
        · obtain ⟨rfl, rfl⟩ := hxy
          have hno : rowBit byte x0 cs (x0 + c) = false := by
            rw [Bool.eq_false_iff, ne_eq, rowBit_iff]
            rintro ⟨k, hk, h0, -⟩
            have := hlt k hk; omega
          have hyes : rowBit byte x0 (c :: cs) (x0 + c) = true := hcons.2 (.inl ⟨rfl, by omega, hb⟩)
          simp [hno, hyes, hy, (by omega : x0 + c < 64)]
        · have hsame : (decide (y' = y) && rowBit byte x0 (c :: cs) x') = (decide (y' = y) && rowBit byte x0 cs x') := by
            by_cases hyy : y' = y
            · have : rowBit byte x0 (c :: cs) x' = rowBit byte x0 cs x' := by
                rw [Bool.eq_iff_iff, hcons]
                constructor
                · rintro (h | h)
                  · exact absurd ⟨h.1, hyy⟩ hxy
                  · exact h
                · exact .inr
              rw [this]
            · simp [hyy]
          have hif : ¬(x' = x0 + c ∧ y' = y ∧ x0 + c < 64 ∧ y < 46) := fun h => hxy ⟨h.1, h.2.1⟩
          rw [if_neg hif, hsame]
    · have : rowBit byte x0 (c :: cs) x' = rowBit byte x0 cs x' := by
        rw [Bool.eq_iff_iff, hcons]
        exact ⟨fun h => h.elim (fun h => absurd h.2.2 hb) id, .inr⟩
      rw [Canvas.drawRow, if_neg hb, ih hcs, this]

/-- One sprite row sets `hit` exactly when one of its pixels was lit before the row. -/
theorem Canvas.drawRow_hit (byte : Byte) (x0 y : Nat) (cols : List Nat)
    (hc : cols.Pairwise (· < ·)) (d : Canvas) :
    (d.drawRow byte x0 y cols).hit = true ↔
      d.hit = true ∨ ∃ x, rowBit byte x0 cols x = true ∧ d.fb.pixel x y = true := by
  induction cols generalizing d with
  | nil => simp [Canvas.drawRow, rowBit]
  | cons c cs ih =>
    obtain ⟨hlt, hcs⟩ := List.pairwise_cons.1 hc
    by_cases hb : byte.getLsbD (7 - c) = true
    · by_cases hx : x0 + c > 63
      · have hno : ∀ x, ¬ rowBit byte x0 (c :: cs) x = true := by
          intro x
          rw [rowBit_iff]
          rintro ⟨k, hk, rfl, h1, -⟩
          rcases List.mem_cons.1 hk with rfl | hk
          · omega
          · have := hlt k hk; omega
        simp [Canvas.drawRow, hb, hx, hno]
      · rw [Canvas.drawRow, if_pos hb, if_neg hx, ih hcs]
        simp only [Canvas.plot, Bool.or_eq_true, Framebuffer.pixel_toggle, rowBit_cons]
        constructor
        · rintro ((h | h) | ⟨x, h1, h2⟩)
          · exact .inl h
          · exact .inr ⟨x0 + c, .inl ⟨rfl, by omega, hb⟩, h⟩
          · obtain ⟨k, hk, rfl, -⟩ := (rowBit_iff ..).1 h1
            have hne : ¬(x0 + k = x0 + c ∧ True ∧ x0 + c < 64 ∧ y < 46) := by
              have := hlt k hk; omega
            rw [if_neg hne] at h2
            exact .inr ⟨x0 + k, .inr h1, h2⟩
        · rintro (h | ⟨x, ⟨rfl, -⟩ | h1, h2⟩)
          · exact .inl (.inl h)
          · exact .inl (.inr h2)
          · obtain ⟨k, hk, rfl, -⟩ := (rowBit_iff ..).1 h1
            have hne : ¬(x0 + k = x0 + c ∧ True ∧ x0 + c < 64 ∧ y < 46) := by
              have := hlt k hk; omega
            exact .inr ⟨x0 + k, h1, by rw [if_neg hne]; exact h2⟩
    · rw [Canvas.drawRow, if_neg hb, ih hcs]
      have hcons : ∀ x, rowBit byte x0 (c :: cs) x = true ↔ rowBit byte x0 cs x = true := fun x => by
        rw [rowBit_cons]
        exact ⟨fun h => h.elim (fun h => absurd h.2.2 hb) id, .inr⟩
      simp only [hcons]

/-- The pixels of a sprite, row by row. -/
theorem spriteBit_cons (byte : Byte) (rows : List Byte) (x0 y0 x y : Nat) :
    spriteBit (byte :: rows) x0 y0 x y =
      if y = y0 then rowBit byte x0 (List.range 8) x else spriteBit rows x0 (y0 + 1) x y := by
  by_cases hy : y = y0
  · subst hy
    have h : (x0 ≤ x ∧ x < x0 + 8 ∧ x ≤ 63 ∧ y ≤ y) ↔ (x0 ≤ x ∧ x ≤ 63 ∧ x - x0 ∈ List.range 8) := by
      rw [List.mem_range]; omega
    simp only [spriteBit, rowBit, h]
    simp
  · by_cases hlt : y0 < y
    · have e : y - y0 = (y - (y0 + 1)) + 1 := by omega
      have h : (x0 ≤ x ∧ x < x0 + 8 ∧ x ≤ 63 ∧ y0 ≤ y) ↔ (x0 ≤ x ∧ x < x0 + 8 ∧ x ≤ 63 ∧ y0 + 1 ≤ y) := by omega
      simp only [spriteBit, h, if_neg hy, e, List.getElem?_cons_succ]
    · have h1 : ¬ y0 ≤ y := by omega
      have h2 : ¬ y0 + 1 ≤ y := by omega
      simp [spriteBit, h1, h2, hy]

theorem spriteBit_nil (x0 y0 x y : Nat) : spriteBit [] x0 y0 x y = false := by simp [spriteBit]

theorem range_eight_sorted : (List.range 8).Pairwise (· < ·) := by decide

/-- A sprite is an exclusive OR onto the framebuffer (R152 (d)). -/
theorem Canvas.drawSprite_pixel (x0 y0 : Nat) (rows : List Byte) (h : y0 + rows.length ≤ 46) (d : Canvas)
    (x y : Nat) :
    (d.drawSprite x0 y0 rows).fb.pixel x y = (d.fb.pixel x y ^^ spriteBit rows x0 y0 x y) := by
  induction rows generalizing y0 d with
  | nil => simp [Canvas.drawSprite, spriteBit_nil]
  | cons byte rows ih =>
    simp only [List.length_cons] at h
    rw [Canvas.drawSprite, ih (y0 + 1) (by omega), Canvas.drawRow_pixel _ _ _ (by omega) _ range_eight_sorted,
      spriteBit_cons]
    by_cases hy : y = y0
    · subst hy
      have hz : spriteBit rows x0 (y + 1) x y = false := by simp [spriteBit]
      simp [hz]
    · simp [hy]

/-- The collision bit: some pixel of the sprite was lit before the draw (R153). -/
theorem Canvas.drawSprite_hit (x0 y0 : Nat) (rows : List Byte) (h : y0 + rows.length ≤ 46) (d : Canvas) :
    (d.drawSprite x0 y0 rows).hit = true ↔
      d.hit = true ∨ ∃ x y, spriteBit rows x0 y0 x y = true ∧ d.fb.pixel x y = true := by
  induction rows generalizing y0 d with
  | nil => simp [Canvas.drawSprite, spriteBit_nil]
  | cons byte rows ih =>
    simp only [List.length_cons] at h
    rw [Canvas.drawSprite, ih (y0 + 1) (by omega), Canvas.drawRow_hit _ _ _ _ range_eight_sorted]
    have hpix := Canvas.drawRow_pixel byte x0 y0 (by omega) (List.range 8) range_eight_sorted d
    have hbelow : ∀ x, spriteBit rows x0 (y0 + 1) x y0 = false := fun x => by simp [spriteBit]
    constructor
    · rintro ((hd | ⟨x, h1, h2⟩) | ⟨x, y, h1, h2⟩)
      · exact .inl hd
      · exact .inr ⟨x, y0, by simpa [spriteBit_cons] using h1, h2⟩
      · have hy : y ≠ y0 := by rintro rfl; simp [hbelow] at h1
        exact .inr ⟨x, y, by simpa [spriteBit_cons, hy] using h1, by simpa [hpix, hy] using h2⟩
    · rintro (hd | ⟨x, y, h1, h2⟩)
      · exact .inl (.inl hd)
      · by_cases hy : y = y0
        · subst hy
          exact .inl (.inr ⟨x, by simpa [spriteBit_cons] using h1, h2⟩)
        · exact .inr ⟨x, y, by simpa [spriteBit_cons, hy] using h1, by simpa [hpix, hy] using h2⟩

/-- The sprite of a DXYN, read from memory, turns over the pixels its rule names. -/
theorem State.spriteBit_eq_turnsOver (s : State) (x y : Reg) (n : Nibble) (px py : Nat) :
    spriteBit (s.memory.loadBlock (s.effAddr 0) n.toNat) (s.spriteX x) (s.spriteY y) px py =
      s.turnsOver x y n px py := by
  have e : s.effAddr 0 + (py - (s.reg y).toNat % 32) = s.effAddr (py - (s.reg y).toNat % 32) := by
    simp [State.effAddr]
  simp only [spriteBit, State.turnsOver, State.spriteX, State.spriteY, Config.screenCols, Config.screenRows,
    Memory.loadBlock_getElem?]
  by_cases h : py - (s.reg y).toNat % 32 < n.toNat
  · simp only [if_pos h, e]
    congr 1
    apply decide_eq_decide.2
    omega
  · have h' : ¬((s.reg x).toNat % 64 ≤ px ∧ px < (s.reg x).toNat % 64 + 8 ∧ px ≤ 63 ∧ (s.reg y).toNat % 32 ≤ py ∧
        py < (s.reg y).toNat % 32 + n.toNat) := by omega
    simp only [if_neg h, h', decide_false, Bool.and_false, Bool.false_and]

end Sys2Proof.Machine
end

