-- ==== Sys2Proof/Laws/PerInstr.lean ====
section
/-! SUPPORT. Statements made for every instruction, one lemma per constructor. -/

namespace Sys2Proof.Laws.FitsRow

/-- The instruction's operands are in range, its row is a row of R75, and its word has that row's fixed digits
(R72). -/
def Statement (i : Instr) : Prop :=
  i.wellFormed = true ∧ i.row ∈ opcodeTable ∧ i.row.fits (encode i) = true

variable (x y : Reg) (n : Nibble) (nn : Byte) (nnn : Addr)

theorem range4 (x : Reg) : WellFormed.regOk x.toNat = true := decide_eq_true x.isLt

theorem range8 (nn : Byte) : WellFormed.byteOk nn.toNat = true := decide_eq_true (Nat.le_of_lt_succ nn.isLt)

theorem range12 (nnn : Addr) : WellFormed.addrOk nnn.toNat = true := decide_eq_true (Nat.le_of_lt_succ nnn.isLt)

/-- A word with leading digit `a` fits the row of that digit alone. -/
theorem fits_op (a b c d : Nibble) : Row.fits ⟨a ++ 0#4 ++ 0#4 ++ 0#4, 0xF#4 ++ 0#4 ++ 0#4 ++ 0#4⟩ (a ++ b ++ c ++ d) = true := by
  simp only [Row.fits, decide_eq_true_eq, digits_and, digits_inj, BitVec.and_zero, and_true]
  revert a; decide

/-- A word with leading digit `a` and last digit `d` fits the row of those two digits. -/
theorem fits_op_n (a b c d : Nibble) : Row.fits ⟨a ++ 0#4 ++ 0#4 ++ d, 0xF#4 ++ 0#4 ++ 0#4 ++ 0xF#4⟩ (a ++ b ++ c ++ d) = true := by
  simp only [Row.fits, decide_eq_true_eq, digits_and, digits_inj, BitVec.and_zero, true_and]
  revert a d; decide

/-- A word with leading digit `a` and last digits `c`, `d` fits the row of those three digits. -/
theorem fits_op_y_n (a b c d : Nibble) : Row.fits ⟨a ++ 0#4 ++ c ++ d, 0xF#4 ++ 0#4 ++ 0xF#4 ++ 0xF#4⟩ (a ++ b ++ c ++ d) = true := by
  simp only [Row.fits, decide_eq_true_eq, digits_and, digits_inj, BitVec.and_zero, true_and]
  have h : ∀ e : Nibble, e &&& 0xF#4 = e := by decide
  exact ⟨h a, h c, h d⟩

/-- The same with the last digits written as a byte. -/
theorem fits_op_byte (a b c d : Nibble) (nn : Byte) (h : nn = (c ++ d : BitVec (4 + 4))) :
    Row.fits ⟨a ++ 0#4 ++ c ++ d, 0xF#4 ++ 0#4 ++ 0xF#4 ++ 0xF#4⟩ (a ++ b ++ nn) = true := by
  have e : (a ++ b ++ nn : Word) = a ++ b ++ c ++ d := by
    subst h; exact (BitVec.append_assoc (x₁ := a ++ b) (x₂ := c) (x₃ := d)).symm
  rw [e]; exact fits_op_y_n a b c d

theorem mem {r : Row} (h : opcodeTable.elem r = true) : r ∈ opcodeTable := List.mem_of_elem_eq_true h

theorem cls : Statement .cls := by unfold Statement; decide

theorem ret : Statement .ret := by unfold Statement; decide

theorem jp : Statement (.jp nnn) :=
  ⟨range12 nnn, mem rfl, by
    rw [encode, append_addr]; exact fits_op 0x1#4 _ _ _⟩

theorem call : Statement (.call nnn) :=
  ⟨range12 nnn, mem rfl, by
    rw [encode, append_addr]; exact fits_op 0x2#4 _ _ _⟩

theorem seImm : Statement (.seImm x nn) :=
  ⟨by simp [Instr.wellFormed, range4, range8], mem rfl, by
    rw [encode, append_byte]; exact fits_op 0x3#4 _ _ _⟩

theorem sneImm : Statement (.sneImm x nn) :=
  ⟨by simp [Instr.wellFormed, range4, range8], mem rfl, by
    rw [encode, append_byte]; exact fits_op 0x4#4 _ _ _⟩

theorem seReg : Statement (.seReg x y) :=
  ⟨by simp [Instr.wellFormed, range4], mem rfl, fits_op_n 0x5#4 x y 0x0#4⟩

theorem ldImm : Statement (.ldImm x nn) :=
  ⟨by simp [Instr.wellFormed, range4, range8], mem rfl, by
    rw [encode, append_byte]; exact fits_op 0x6#4 _ _ _⟩

theorem addImm : Statement (.addImm x nn) :=
  ⟨by simp [Instr.wellFormed, range4, range8], mem rfl, by
    rw [encode, append_byte]; exact fits_op 0x7#4 _ _ _⟩

theorem ldReg : Statement (.ldReg x y) :=
  ⟨by simp [Instr.wellFormed, range4], mem rfl, fits_op_n 0x8#4 x y 0x0#4⟩

theorem orReg : Statement (.orReg x y) :=
  ⟨by simp [Instr.wellFormed, range4], mem rfl, fits_op_n 0x8#4 x y 0x1#4⟩

theorem andReg : Statement (.andReg x y) :=
  ⟨by simp [Instr.wellFormed, range4], mem rfl, fits_op_n 0x8#4 x y 0x2#4⟩

theorem xorReg : Statement (.xorReg x y) :=
  ⟨by simp [Instr.wellFormed, range4], mem rfl, fits_op_n 0x8#4 x y 0x3#4⟩

theorem addReg : Statement (.addReg x y) :=
  ⟨by simp [Instr.wellFormed, range4], mem rfl, fits_op_n 0x8#4 x y 0x4#4⟩

theorem subReg : Statement (.subReg x y) :=
  ⟨by simp [Instr.wellFormed, range4], mem rfl, fits_op_n 0x8#4 x y 0x5#4⟩

theorem shrReg : Statement (.shrReg x y) :=
  ⟨by simp [Instr.wellFormed, range4], mem rfl, fits_op_n 0x8#4 x y 0x6#4⟩

theorem subnReg : Statement (.subnReg x y) :=
  ⟨by simp [Instr.wellFormed, range4], mem rfl, fits_op_n 0x8#4 x y 0x7#4⟩

theorem shlReg : Statement (.shlReg x y) :=
  ⟨by simp [Instr.wellFormed, range4], mem rfl, fits_op_n 0x8#4 x y 0xe#4⟩

theorem sneReg : Statement (.sneReg x y) :=
  ⟨by simp [Instr.wellFormed, range4], mem rfl, fits_op_n 0x9#4 x y 0x0#4⟩

theorem ldI : Statement (.ldI nnn) :=
  ⟨range12 nnn, mem rfl, by
    rw [encode, append_addr]; exact fits_op 0xa#4 _ _ _⟩

theorem jpV0 : Statement (.jpV0 nnn) :=
  ⟨range12 nnn, mem rfl, by
    rw [encode, append_addr]; exact fits_op 0xb#4 _ _ _⟩

theorem rnd : Statement (.rnd x nn) :=
  ⟨by simp [Instr.wellFormed, range4, range8], mem rfl, by
    rw [encode, append_byte]; exact fits_op 0xc#4 _ _ _⟩

theorem drw : Statement (.drw x y n) :=
  ⟨by simpa [Instr.wellFormed, range4, WellFormed.countOk] using Nat.le_of_lt_succ n.isLt, mem rfl,
    fits_op 0xD#4 x y n⟩

theorem skp : Statement (.skp x) :=
  ⟨range4 x, mem rfl, fits_op_byte 0xe#4 x 0x9#4 0xe#4 _ rfl⟩

theorem sknp : Statement (.sknp x) :=
  ⟨range4 x, mem rfl, fits_op_byte 0xe#4 x 0xa#4 0x1#4 _ rfl⟩

theorem ldKey : Statement (.ldKey x) :=
  ⟨range4 x, mem rfl, fits_op_byte 0xf#4 x 0x0#4 0xa#4 _ rfl⟩

theorem ldFromDt : Statement (.ldFromDt x) :=
  ⟨range4 x, mem rfl, fits_op_byte 0xf#4 x 0x0#4 0x7#4 _ rfl⟩

theorem ldDt : Statement (.ldDt x) :=
  ⟨range4 x, mem rfl, fits_op_byte 0xf#4 x 0x1#4 0x5#4 _ rfl⟩

theorem ldSt : Statement (.ldSt x) :=
  ⟨range4 x, mem rfl, fits_op_byte 0xf#4 x 0x1#4 0x8#4 _ rfl⟩

theorem addI : Statement (.addI x) :=
  ⟨range4 x, mem rfl, fits_op_byte 0xf#4 x 0x1#4 0xe#4 _ rfl⟩

theorem ldFont : Statement (.ldFont x) :=
  ⟨range4 x, mem rfl, fits_op_byte 0xf#4 x 0x2#4 0x9#4 _ rfl⟩

theorem ldBcd : Statement (.ldBcd x) :=
  ⟨range4 x, mem rfl, fits_op_byte 0xf#4 x 0x3#4 0x3#4 _ rfl⟩

theorem storeRegs : Statement (.storeRegs x) :=
  ⟨range4 x, mem rfl, fits_op_byte 0xf#4 x 0x5#4 0x5#4 _ rfl⟩

theorem loadRegs : Statement (.loadRegs x) :=
  ⟨range4 x, mem rfl, fits_op_byte 0xf#4 x 0x6#4 0x5#4 _ rfl⟩

end Sys2Proof.Laws.FitsRow
end

