-- ==== Sys2Proof/Laws/Registers.lean ====
section
/-! SUPPORT. What a block write of the registers leaves (R135). -/

namespace Sys2Proof.Machine

theorem writeRegs_getElem? (v : Vector Byte Config.regCount) (k : Nat) (bs : List Byte) (j : Nat) (hj : j < 16) :
    (writeRegs v k bs)[j]? = if k ≤ j then (bs[j - k]?).orElse (fun _ => v[j]?) else v[j]? := by
  induction bs generalizing v k with
  | nil => simp [writeRegs]
  | cons b bs ih =>
    rw [writeRegs, ih]
    by_cases h1 : j = k
    · subst h1; simp [hj]
    · by_cases h2 : k + 1 ≤ j
      · have h3 : j - k = (j - (k + 1)) + 1 := by omega
        simp [h2, h3, (by omega : k ≤ j), Ne.symm h1]
      · have h3 : ¬ k ≤ j := by omega
        simp only [h2, h3, if_false]
        simp [Ne.symm h1]

/-- v[k] is the k-th byte of the block where there is one, and unchanged beyond it. -/
theorem State.setRegs_reg (s : State) (bs : List Byte) (j : Reg) :
    (s.setRegs bs).reg j = (bs[j.toNat]?).getD (s.reg j) := by
  have hj : j.toNat < 16 := j.isLt
  have h := writeRegs_getElem? s.v 0 bs j.toNat hj
  have e : (s.setRegs bs).v[j.toNat]? = some ((s.setRegs bs).reg j) := by simp [State.reg, hj]
  have e' : s.v[j.toNat]? = some (s.reg j) := by simp [State.reg, hj]
  have h' : some ((s.setRegs bs).reg j) = (bs[j.toNat]?).orElse (fun _ => some (s.reg j)) := by
    rw [← e, ← e']; simpa [State.setRegs] using h
  cases hb : bs[j.toNat]? <;> simp_all

end Sys2Proof.Machine
end

