-- ==== Sys2Proof/Tests/Slice0.lean ====
section
/-! SUPPORT. The model's own tests: the WellFormed smoke, decoding by words written out from R75, single-step vectors of
95_test_vectors.md (named by their row), and for every statement with hypotheses a witness that meets them. -/

namespace Sys2Proof.Tests

open Sys2Proof Sys2Proof.Machine

/-! ### WellFormed: each check refuses an ill-formed value -/

theorem test_regOk : WellFormed.regOk 15 = true ∧ WellFormed.regOk 16 = false := by decide
theorem test_byteOk : WellFormed.byteOk 255 = true ∧ WellFormed.byteOk 256 = false := by decide
theorem test_addrOk : WellFormed.addrOk 4095 = true ∧ WellFormed.addrOk 4096 = false := by decide
theorem test_countOk : WellFormed.countOk 15 = true ∧ WellFormed.countOk 16 = false := by decide
theorem test_imageOk : WellFormed.imageOk (List.replicate 3584 0) = true ∧
    WellFormed.imageOk (List.replicate 3585 0) = false := by
  simp only [WellFormed.imageOk, List.length_replicate]; decide
theorem test_wellFormed : (Instr.drw 15 15 15).wellFormed = true ∧ (Instr.jp 0xFFF).wellFormed = true := by decide

/-! ### Decoding: one word for every row of R75, from the row's pattern (words of 95_test_vectors.md, 3.7, where it has
one) -/

theorem test_decode_fix : decode 0x00E0#16 = .instr .cls ∧ decode 0x00EE#16 = .instr .ret := by decide
theorem test_decode_nnn : decode 0x1ABC#16 = .instr (.jp 0xABC) ∧ decode 0x2FFF#16 = .instr (.call 0xFFF) ∧
    decode 0xA0EF#16 = .instr (.ldI 0x0EF) ∧ decode 0xB123#16 = .instr (.jpV0 0x123) := by decide
theorem test_decode_xnn : decode 0x3A42#16 = .instr (.seImm 10 0x42) ∧ decode 0x4A42#16 = .instr (.sneImm 10 0x42) ∧
    decode 0x6A2F#16 = .instr (.ldImm 10 0x2F) ∧ decode 0x7EFF#16 = .instr (.addImm 14 0xFF) ∧
    decode 0xC30F#16 = .instr (.rnd 3 0x0F) := by decide
theorem test_decode_skips : decode 0x5AB0#16 = .instr (.seReg 10 11) ∧ decode 0x9AB0#16 = .instr (.sneReg 10 11) := by
  decide
theorem test_decode_logic : decode 0x8120#16 = .instr (.ldReg 1 2) ∧ decode 0x8121#16 = .instr (.orReg 1 2) ∧
    decode 0x8122#16 = .instr (.andReg 1 2) ∧ decode 0x8123#16 = .instr (.xorReg 1 2) := by decide
theorem test_decode_arith : decode 0x8AB4#16 = .instr (.addReg 10 11) ∧ decode 0x8AB5#16 = .instr (.subReg 10 11) ∧
    decode 0x8AB6#16 = .instr (.shrReg 10 11) ∧ decode 0x8AB7#16 = .instr (.subnReg 10 11) ∧
    decode 0x8ABE#16 = .instr (.shlReg 10 11) := by decide
theorem test_decode_draw_keys : decode 0xD01F#16 = .instr (.drw 0 1 15) ∧ decode 0xE19E#16 = .instr (.skp 1) ∧
    decode 0xE1A1#16 = .instr (.sknp 1) ∧ decode 0xF10A#16 = .instr (.ldKey 1) := by decide
theorem test_decode_timers : decode 0xF507#16 = .instr (.ldFromDt 5) ∧ decode 0xF515#16 = .instr (.ldDt 5) ∧
    decode 0xF518#16 = .instr (.ldSt 5) := by decide
theorem test_decode_index : decode 0xF21E#16 = .instr (.addI 2) ∧ decode 0xF029#16 = .instr (.ldFont 0) ∧
    decode 0xFE33#16 = .instr (.ldBcd 14) ∧ decode 0xF155#16 = .instr (.storeRegs 1) ∧
    decode 0xF265#16 = .instr (.loadRegs 2) := by decide
theorem test_decode_unknown : decode 0x0000#16 = .unknown 0x0000#16 ∧ decode 0x8AB8#16 = .unknown 0x8AB8#16 ∧
    decode 0xE19F#16 = .unknown 0xE19F#16 ∧ decode 0xF075#16 = .unknown 0xF075#16 := by decide
theorem test_decode_bytes : decodeBytes 0x12#8 0x34#8 = .instr (.jp 0x234) := by decide
theorem test_table_word : decodeTableWord 16 0x8AB4 = some (.addReg 10 11) ∧ decodeTableWord 16 0x8AB8 = none := by
  decide

/-! ### Single steps -/

/-- The common start of 95_test_vectors.md, section 1, with the listed registers and `i`. -/
def start (regs : List (Reg × Byte)) (i : Word := 0) : State :=
  regs.foldl (fun t p => t.setReg p.1 p.2) ((State.reset.setReg VF 0xEE).setI i)

/-- Bytes stored from an address on. -/
def bytes (a : Nat) (bs : List Byte) (s : State) : State := s.setMemory (s.memory.storeBlock a bs)

/-- One STEP over a word placed at `pc` (0x200 in a start state). -/
def run (w : Nat) (s : State) (keys : KeySet := 0) (rnd : Byte := 0) : Result :=
  step ({ s with schedule := [.step keys rnd] }.withFetchWord 16 w)

/-- The result is a next state of which `p` holds. -/
def ok (r : Result) (p : State → Bool) : Bool :=
  match r with
  | .next t => p t
  | _ => false

/-- The result is the fault `f`. -/
def faults (r : Result) (f : Fault) : Bool :=
  match r with
  | .fault g => decide (g = f)
  | _ => false

/-- `pc`, v[k] and VF. -/
def sees (pc : Nat) (k : Reg) (b flag : Byte) (t : State) : Bool :=
  decide (t.pc.toNat = pc) && decide (t.reg k = b) && decide (t.reg VF = flag)

/-- A call stack of `n` return addresses. -/
def deep (n : Nat) : State := State.reset.setStack (List.replicate n 0x202)

theorem test_T1_T3 : ok (run 0x1EEE (start [])) (fun t => t.pc == 0xEEE) ∧
    ok (run 0x1FFF (start [])) (fun t => t.pc == 0xFFF) := by decide
theorem test_T5_T11 : ok (run 0x2ABC (start [])) (fun t => t.pc == 0xABC && t.stack == [0x202]) ∧
    ok (run 0x2300 (deep 15)) (fun t => t.pc == 0x300 && t.stack.length == 16) := by decide
theorem test_T10 : faults (run 0x2300 (deep 16)) .stackOverflow := by decide
theorem test_T8_T9 : ok (run 0x00EE ((start []).setStack [0x30A, 0x206])) (fun t => t.pc == 0x30A && t.stack == [0x206]) ∧
    faults (run 0x00EE (start [])) .stackUnderflow := by decide
theorem test_T12_T13 : ok (run 0x332A (start [(3, 0x2A)])) (fun t => t.pc == 0x204) ∧
    ok (run 0x332A (start [(3, 0x2B)])) (fun t => t.pc == 0x202) := by decide
theorem test_T14_T15 : ok (run 0x432A (start [(3, 0x2A)])) (fun t => t.pc == 0x202) ∧
    ok (run 0x432A (start [(3, 0x2B)])) (fun t => t.pc == 0x204) := by decide
theorem test_T16_T17 : ok (run 0x5120 (start [(1, 7), (2, 7)])) (fun t => t.pc == 0x204) ∧
    ok (run 0x5120 (start [(1, 7), (2, 8)])) (fun t => t.pc == 0x202) := by decide
theorem test_T18_T29 : ok (run 0x5121 (start [(1, 7), (2, 7)])) (fun t => t.pc == 0x202) ∧
    ok (run 0xF166 (start [])) (fun t => t.pc == 0x202) := by decide
theorem test_T19_T20 : ok (run 0x9120 (start [(1, 7), (2, 8)])) (fun t => t.pc == 0x204) ∧
    ok (run 0x9120 (start [(1, 7), (2, 7)])) (fun t => t.pc == 0x202) := by decide
theorem test_T23_T24 : ok (run 0xBFFF (start [(0, 0xFF)])) (fun t => t.pc == 0x10FE) ∧
    faults (step { start [] with pc := 0x10FE, schedule := [.step 0 0] }) (.fetchOutOfBounds 0x10FE) := by decide
theorem test_T31 : ok (run 0x3000 ((start []).setPc 0xFFE)) (fun t => t.pc == 0x1002) := by decide

theorem test_A1_A2 : ok (run 0x6A2F (start [])) (sees 0x202 10 0x2F 0xEE) ∧
    ok (run 0x6F80 (start [])) (sees 0x202 15 0x80 0x80) := by decide
theorem test_A3_A6 : ok (run 0x7020 (start [(0, 0xF0), (15, 0x55)])) (sees 0x202 0 0x10 0x55) ∧
    ok (run 0x7FFF (start [(15, 0x01)])) (sees 0x202 15 0x00 0x00) := by decide
theorem test_A7_A8 : ok (run 0x8120 (start [(2, 0x77)])) (sees 0x202 1 0x77 0xEE) ∧
    ok (run 0x8121 (start [(1, 0x0F), (2, 0xF0), (15, 0x01)])) (sees 0x202 1 0xFF 0x01) := by decide
theorem test_A9_A10 : ok (run 0x8122 (start [(1, 0x3C), (2, 0x0F), (15, 0x01)])) (sees 0x202 1 0x0C 0x01) ∧
    ok (run 0x8123 (start [(1, 0xFF), (2, 0x0F), (15, 0x01)])) (sees 0x202 1 0xF0 0x01) := by decide
theorem test_A12_A13 : ok (run 0x8124 (start [(1, 0xC8), (2, 0x64)])) (sees 0x202 1 0x2C 0x01) ∧
    ok (run 0x8124 (start [(1, 0xF0), (2, 0x0F), (15, 0x01)])) (sees 0x202 1 0xFF 0x00) := by decide
theorem test_A16_A18 : ok (run 0x8F24 (start [(15, 0xF0), (2, 0x20)])) (sees 0x202 15 0x01 0x01) ∧
    ok (run 0x81F4 (start [(1, 0xFF), (15, 0x01)])) (sees 0x202 1 0x00 0x01) := by decide
theorem test_A19_A21 : ok (run 0x8125 (start [(1, 0x0A), (2, 0x0C)])) (sees 0x202 1 0xFE 0x00) ∧
    ok (run 0x8125 (start [(1, 0x33), (2, 0x33)])) (sees 0x202 1 0x00 0x01) := by decide
theorem test_A24_A27 : ok (run 0x8126 (start [(1, 0xAA), (2, 0x05)])) (sees 0x202 1 0x02 0x01) ∧
    ok (run 0x81F6 (start [(15, 0x03)])) (sees 0x202 1 0x01 0x01) := by decide
theorem test_A30_A31 : ok (run 0x8127 (start [(1, 0x0A), (2, 0x0C)])) (sees 0x202 1 0x02 0x01) ∧
    ok (run 0x8127 (start [(1, 0x0C), (2, 0x0A)])) (sees 0x202 1 0xFE 0x00) := by decide
theorem test_A33_A34 : ok (run 0x812E (start [(1, 0xAA), (2, 0x81)])) (sees 0x202 1 0x02 0x01) ∧
    ok (run 0x812E (start [(1, 0xAA), (2, 0x40), (15, 0x01)])) (sees 0x202 1 0x80 0x00) := by decide
theorem test_A37_A38 : ok (run 0xC30F (start []) 0 0xB7) (sees 0x202 3 0x07 0xEE) ∧
    ok (run 0xC300 (start [(3, 0x55)]) 0 0xFF) (sees 0x202 3 0x00 0xEE) := by decide

theorem test_I1 : ok (run 0xA0EF (start [])) (fun t => t.i == 0x0EF && t.pc == 0x202) := by decide
theorem test_I4_I6 : ok (run 0xF21E (start [(2, 0x01)] 0xFFFF)) (fun t => t.i == 0 && t.reg VF == 1) ∧
    ok (run 0xFF1E (start [(15, 0x05)] 0x300)) (fun t => t.i == 0x305 && t.reg VF == 0) := by decide
theorem test_I8_I9 : ok (run 0xF029 (start [(0, 0x1A)])) (fun t => t.i == 0x082) ∧
    ok (run 0xF029 (start [(0, 0xFF)])) (fun t => t.i == 0x09B) := by decide
theorem test_I14_I15 : ok (run 0xF033 (start [(0, 0x7B)] 0xFFD))
      (fun t => t.memory.read 0xFFD == 1 && t.memory.read 0xFFE == 2 && t.memory.read 0xFFF == 3) ∧
    faults (run 0xF033 (start [(0, 0x7B)] 0xFFE)) (.memOutOfBounds 0x1000) := by decide
theorem test_I16_I20 : ok (run 0xF155 (start [(0, 0x11), (1, 0x22), (2, 0x33)] 0x400))
      (fun t => t.i == 0x402 && t.memory.read 0x400 == 0x11 && t.memory.read 0x401 == 0x22 && t.memory.read 0x402 == 0) ∧
    faults (run 0xF155 (start [] 0xFFFF)) (.memOutOfBounds 0x10000) := by decide
theorem test_I22_I23 : ok (run 0xF165 (bytes 0x500 [0x10, 0x11, 0x12] (start [(2, 0x77)] 0x500)))
      (fun t => t.i == 0x502 && t.reg 0 == 0x10 && t.reg 1 == 0x11 && t.reg 2 == 0x77) ∧
    faults (run 0xF265 (start [] 0xFFE)) (.memOutOfBounds 0x1000) := by decide

/-- A display with the listed pixels lit. -/
def lit (ps : List (Nat × Nat)) (s : State) : State := s.setFb (ps.foldl (fun f p => f.toggle p.1 p.2) s.fb)

theorem test_G1 : ok (run 0x00E0 (lit [(3, 4), (63, 40)] (start [])))
    (fun t => !t.fb.pixel 3 4 && !t.fb.pixel 63 40 && t.reg VF == 0xEE) := by decide
theorem test_G5 : ok (run 0xD122 (bytes 0x300 [0x0F, 0x80] (start [(1, 60), (2, 0)] 0x300)))
    (fun t => t.fb.pixel 60 1 && !t.fb.pixel 63 0 && !t.fb.pixel 0 0 && t.reg VF == 0) := by decide
theorem test_G7 : ok (run 0xD123 (bytes 0x300 [0x80, 0x80, 0x80] (lit [(0, 32)] (start [(1, 0), (2, 31)] 0x300))))
    (fun t => t.fb.pixel 0 31 && !t.fb.pixel 0 32 && t.fb.pixel 0 33 && t.reg VF == 1) := by decide

theorem test_K1_K4 : ok (run 0xE49E (start [(4, 0x0A)]) 0x0400) (fun t => t.pc == 0x204) ∧
    ok (run 0xE49E (start [(4, 0x15)]) 0x0020) (fun t => t.pc == 0x202) := by decide
theorem test_K5_K7 : ok (run 0xE4A1 (start [(4, 0x0A)]) 0x0400) (fun t => t.pc == 0x202) ∧
    ok (run 0xE4A1 (start [(4, 0x15)]) 0x0020) (fun t => t.pc == 0x204) := by decide
theorem test_K8_K9 : ok (run 0xF30A (start [(3, 0x77)])) (fun t => t.pc == 0x200 && t.reg 3 == 0x77) ∧
    ok (run 0xF30A (start [(3, 0x77)]) 0x0220) (fun t => t.pc == 0x202 && t.reg 3 == 0x05) := by decide
theorem test_K12 : ok (run 0xF507 ((start []).setDt 0x3C)) (fun t => t.reg 5 == 0x3C) := by decide
theorem test_K14_K15 : ok (run 0xF518 (start [(5, 0x02)])) (fun t => t.st == 0x02 && t.dt == 0) ∧
    ok (run 0xF515 ((start [(5, 0xFF)]).setDt 0x10)) (fun t => t.dt == 0xFF && t.st == 0) := by decide
theorem test_C3_C4 : ((start []).setSt 0x05).tick.dt = 0 ∧ (((start []).setDt 0xFF).setSt 0x01).tick.dt = 0xFE := by
  decide

/-! ### Witnesses: concrete states and operands that meet the hypotheses of a statement, each clause at its boundary -/

theorem witness_EncodeUndoesDecode : decode 0x8AB4#16 = .instr (.addReg 10 11) ∧ decode 0x00E0#16 = .instr .cls := by decide
theorem witness_DecodeFollowsMatchAndMask : decode 0xE19E#16 = .instr (.skp 1) ∧ ⟨0xE09E, 0xF0FF⟩ ∈ opcodeTable ∧
    0xEF9E#16 &&& 0xF0FF#16 = 0xE09E#16 := by decide
theorem witness_UnrecognisedWordsAreListed : decode 0x9ABF#16 = .unknown 0x9ABF#16 ∧ Unrecognised 0x9ABF#16 ∧
    ¬ Unrecognised 0x9AB0#16 := by decide

/-- The register clauses of the four arithmetic statements: `x ≠ VF`, with and without a carry, a borrow, a lost bit. -/
theorem witness_AddSetsCarry : (3#4 : Reg) ≠ VF ∧
    ((start [(3, 0xFF)]).reg 3).toNat + ((start [(4, 0x01)]).reg 4).toNat = 256 ∧
    ((start [(3, 0xFF)]).reg 3).toNat + ((start []).reg 4).toNat = 255 := by decide
theorem witness_SubtractSetsInvertedBorrow : (3#4 : Reg) ≠ VF ∧
    ¬ ((start [(3, 1), (4, 1)]).reg 3).toNat < ((start [(3, 1), (4, 1)]).reg 4).toNat ∧
    ((start [(4, 1)]).reg 3).toNat < ((start [(4, 1)]).reg 4).toNat := by decide
theorem witness_ShiftsMoveTheLostBitToVF : (0#4 : Reg) ≠ VF ∧ ((start [(4, 0x81)]).reg 4).toNat % 2 = 1 := by decide

theorem witness_CallPushesReturnAddress : (deep 0).stack.length < 16 ∧ (deep 15).stack.length < 16 ∧
    (deep 16).stack.length = 16 := by decide
theorem witness_ReturnPopsIntoPc : (deep 2).stack = 0x202 :: [0x202] ∧ (deep 0).stack = [] := by decide
theorem witness_ReturnUndoesCall : ∃ t, exec (.call 0x300) (deep 15) = .next t ∧
    ({ State.reset with stack := t.stack, pc := 0x345 } : State).stack = t.stack := ⟨_, rfl, rfl⟩
theorem witness_RegisterSkips : (1#4 : Nibble) ≠ 0 ∧ (15#4 : Nibble) ≠ 0 ∧
    ((start [(3, 7), (4, 7)]).reg 3).toNat = ((start [(3, 7), (4, 7)]).reg 4).toNat := by decide

theorem witness_DecimalDigitsStored : (start [] 0xFFD).memory.wf = true ∧ (start [] 0xFFD).effAddr 2 ≤ 4095 ∧
    (start [] 0xFFE).effAddr 2 > 4095 := by decide
theorem witness_RegisterBlockStored : (start [] 0xFF0).memory.wf = true ∧
    (start [] 0xFF0).effAddr (15#4 : Reg).toNat ≤ 4095 ∧ (start [] 0xFF1).effAddr (15#4 : Reg).toNat > 4095 ∧
    (start [] 0xFFF).effAddr (0#4 : Reg).toNat ≤ 4095 := by decide
theorem witness_RegisterBlockLoaded : (start [] 0xFF0).effAddr (15#4 : Reg).toNat ≤ 4095 ∧
    (start [] 0x1000).effAddr (0#4 : Reg).toNat > 4095 ∧ (0#4 : Reg).toNat ≤ (0#4 : Reg).toNat := by decide
theorem witness_StoreThenLoadRestoresRegisters : ∃ t, (start [(0, 0x11)] 0x400).memory.wf = true ∧
    exec (.storeRegs 2) (start [(0, 0x11)] 0x400) = .next t ∧
    (∀ a, 0x400 ≤ a → a ≤ 0x402 → (t.setI 0x400).memory.read a = t.memory.read a) ∧
    (t.setI 0x400).i = (start [(0, 0x11)] 0x400).i := ⟨_, rfl, rfl, fun _ _ _ => rfl, rfl⟩
theorem witness_StoreIsSeenByNextFetch : ∃ t, ((start [(0, 0x62), (1, 0xAB)] 0x208).setPc 0x208).memory.wf = true ∧
    (1#4 : Reg) ≠ 0 ∧ exec (.storeRegs 1) ((start [(0, 0x62), (1, 0xAB)] 0x208).setPc 0x208) = .next t ∧ t.pc = 0x208 :=
  ⟨_, rfl, by decide, rfl, rfl⟩

theorem witness_ClearEmptiesDisplay : ∀ px py, State.reset.fb.pixel px py = false := by
  intro px py
  by_cases hy : py < 46 <;> by_cases hx : px < 64 <;> simp [State.reset, Framebuffer.pixel, hx, hy]
theorem witness_DrawTogglesSpritePixels : (0#4 : Nibble) = 0 ∧ (start [] 0xFFE).effAddr ((2#4 : Nibble).toNat - 1) ≤ 4095 ∧
    (3#4 : Nibble) ≠ 0 ∧ (start [] 0xFFE).effAddr ((3#4 : Nibble).toNat - 1) > 4095 := by decide
theorem witness_DrawingTwiceRestoresDisplay : ∃ t, exec (.drw 1 2 1) (bytes 0x300 [0x80] (start [] 0x300)) = .next t ∧
    t.reg 1 = (bytes 0x300 [0x80] (start [] 0x300)).reg 1 ∧ t.reg 2 = (bytes 0x300 [0x80] (start [] 0x300)).reg 2 ∧
    t.i = 0x300 ∧ ∀ a, t.memory.read a = (bytes 0x300 [0x80] (start [] 0x300)).memory.read a :=
  ⟨_, rfl, rfl, rfl, rfl, fun _ => rfl⟩
theorem witness_DrawStaysInItsRectangle : ∃ t, exec (.drw 1 2 1) (bytes 0x300 [0x80] (start [] 0x300)) = .next t ∧
    t.fb.pixel 0 0 ≠ (bytes 0x300 [0x80] (start [] 0x300)).fb.pixel 0 0 := ⟨_, rfl, by decide⟩

theorem witness_KeySkips : ((start [(4, 15)]).reg 4).toNat ≤ 15 ∧ (0x8000#16).getLsbD 15 = true ∧
    ¬ ((start [(4, 16)]).reg 4).toNat ≤ 15 := by decide
theorem witness_KeyWaitTakesLowestKeyOrRewinds : ((start []).latch 0x8000 0).keys ≠ 0 ∧ (start []).keys = 0 := by decide

/-- A state whose next operation is the listed one, with a word at the fetch address. -/
def about (op : HostOp) (w : Nat) (s : State) : State :=
  { s with schedule := [op], memory := s.memory.writeWord s.pc.toNat (BitVec.ofNat 16 w) }

theorem witness_WaitingStepChangesNothing : NextIsStep (about (.step 0 7) 0xF30A (start [])) 0 7 ∧
    (about (.step 0 7) 0xF30A (start [])).pc.toNat ≤ 4094 ∧
    (about (.step 0 7) 0xF30A (start [])).memory.readWord 0x200 = 0xF#4 ++ (3#4 : Reg) ++ 0x0A#8 := by decide
theorem witness_TickSaturates : (about .tick 0 (start [])).nextOp.1 = .tick ∧ (start []).dt.toNat = 0 ∧
    ((start []).setDt 1).dt.toNat > 0 := by decide
theorem witness_LoadWritesOneByte : (about (.load 0xFFF 0xAB) 0 (start [])).memory.wf = true ∧
    (about (.load 0xFFF 0xAB) 0 (start [])).nextOp.1 = .load 0xFFF 0xAB := by decide
theorem witness_ResetValues : (about .reset 0 (deep 16)).nextOp.1 = .reset := by decide
/-- The clause on an image that does not fit is met by the second image of test_imageOk. -/
theorem witness_BootSequenceLoadsImage : WellFormed.imageOk [0x12, 0x00] = true ∧
    bootOps [0x12, 0x00] = some [.reset, .load 0x200 0x12, .load 0x201 0x00] ∧
    ({ start [] with schedule := [.reset, .load 0x200 0x12, .load 0x201 0x00] ++ [.tick] } : State).schedule =
      [.reset, .load 0x200 0x12, .load 0x201 0x00] ++ [.tick] := by decide

/-- An image with a LOAD in its launch, a STEP, and a later launch of its own. -/
theorem witness_LaunchPremisesAdmitBootedRuns : WellFormed.imageOk [0x12] = true ∧
    bootOps [0x12] = some [.reset, .load 0x200 0x12] ∧
    loadsAtLaunch true [.tick, .load 0xFFF 0x01, .step 0 0, .reset, .load 0 0] = true ∧
    loadsAtLaunch false [.load 0 0] = false ∧ loadsAtLaunch true [.step 0 0, .tick, .load 0 0] = false ∧
    (∀ op ∈ [HostOp.tick], op ≠ .reset) := by decide
theorem witness_MemoryIsTheInstructionsAfterLaunch :
    loadsAtLaunch false (about (.step 1 2) 0xF055 (start [(0, 1)] 0x300)).schedule = true ∧
    ok (step (about (.step 1 2) 0xF055 (start [(0, 1)] 0x300)))
      (fun t => t.memory != (about (.step 1 2) 0xF055 (start [(0, 1)] 0x300)).memory) ∧
    loadsAtLaunch true (about (.load 0x300 7) 0 (start [])).schedule = true := by decide

theorem witness_StepRunsDecodedInstruction :
    ({ about (.step 1 2) 0x6A2F ((start []).setPc 4094) with schedule := [] } : State).schedule = [] ∧
    (about (.step 1 2) 0x6A2F ((start []).setPc 4094)).pc.toNat ≤ 4094 ∧
    (about (.step 1 2) 0x6A2F ((start []).setPc 4094)).schedule = .step 1 2 :: [] ∧
    decode ((about (.step 1 2) 0x6A2F ((start []).setPc 4094)).memory.read 4094 ++
      (about (.step 1 2) 0x6A2F ((start []).setPc 4094)).memory.read 4095) = .instr (.ldImm 10 0x2F) := by decide
theorem witness_UnrecognisedWordIsNoOp : NextIsStep (about (.step 1 2) 0xF166 ((start []).setPc 4094)) 1 2 ∧
    Unrecognised ((about (.step 1 2) 0xF166 ((start []).setPc 4094)).memory.read 4094 ++
      (about (.step 1 2) 0xF166 ((start []).setPc 4094)).memory.read 4095) ∧
    (about (.step 1 2) 0 ((start []).setPc 4095)).pc.toNat > 4094 := by decide
theorem witness_FetchFaultsExactlyBeyond4094 : NextIsStep (about (.step 1 2) 0 ((start []).setPc 4095)) 1 2 ∧
    faults (step (about (.step 1 2) 0 ((start []).setPc 4095))) (.fetchOutOfBounds 4095) ∧
    ok (step (about (.step 1 2) 0 ((start []).setPc 4094))) (fun t => t.pc == 4096) := by decide
theorem witness_InstructionFaultsExactlyWhen : faults (exec (.drw 0 1 3) (start [] 0xFFE)) (.memOutOfBounds 0x1000) ∧
    faults (exec (.ldBcd 0) (start [] 0xFFE)) (.memOutOfBounds 0x1000) ∧
    faults (exec (.loadRegs 15) (start [] 0xFF1)) (.memOutOfBounds 0x1000) ∧
    faults (exec .ret (start [])) .stackUnderflow ∧ faults (exec (.call 0) (deep 16)) .stackOverflow := by decide
theorem witness_FaultRepeats : step (about (.step 1 2) 0x00EE (start [])) = .fault .stackUnderflow ∧
    NextIsStep ({ about (.step 1 2) 0x00EE (start []) with schedule := [.step 1 2, .step 3 4] } : State).afterFault 3 4 :=
  ⟨rfl, rfl⟩
theorem witness_SelfJumpIsAFixedPoint : SelfJump (about (.step 1 2) 0x1200 (start [])) ∧
    SelfJump (about (.step 1 2) 0x1FFE ((start []).setPc 4094)) ∧
    ∀ op ∈ (about (.step 1 2) 0x1200 (start [])).schedule, op.isStep = true := by decide
theorem witness_PlacedWordRunsNext : decodeTableWord 16 0x8AB4 = some (.addReg 10 11) ∧ (start []).memory.wf = true ∧
    (start []).placeAddr = 0x200 ∧ ((start []).setPc 0x10FE).placeAddr = 0x200 := by decide

/-- Each clause of the frame over all instructions: a writer that changes the component. -/
theorem witness_ComponentsHaveOnlyTheirWriters :
    ok (exec (.storeRegs 0) (start [(0, 1)] 0x300)) (fun t => t.memory != (start [(0, 1)] 0x300).memory) ∧
    ok (exec (.drw 1 2 1) (bytes 0x300 [0x80] (start [] 0x300))) (fun t => t.fb.pixel 0 0 != (start []).fb.pixel 0 0) ∧
    ok (exec (.call 0x300) (deep 1)) (fun t => t.stack != (deep 1).stack) ∧
    ok (exec (.ldDt 1) (start [(1, 1)])) (fun t => t.dt != 0) ∧ ok (exec (.ldSt 1) (start [(1, 1)])) (fun t => t.st != 0) ∧
    ok (exec (.ldI 1) (start [])) (fun t => t.i != 0) ∧ ok (exec (.jp 1) (start [])) (fun t => t.pc != 0x200) ∧
    ok (exec (.addReg 3 4) (start [(3, 0xFF), (4, 1)])) (fun t => t.reg 3 != 0xFF && t.reg VF != 0xEE) ∧
    ok (exec (.loadRegs 15) (start [] 0x300)) (fun t => t.reg VF != 0xEE) := by decide
theorem witness_FlagHasOnlyItsWriters : ok (exec (.addReg 1 2) (start [])) (fun t => t.reg VF != 0xEE) ∧
    ok (exec (.ldImm VF 7) (start [])) (fun t => t.reg VF != 0xEE) := by decide
theorem witness_InputsHaveOnlyTheirReaders : (∀ x, Instr.ret ≠ .skp x ∧ Instr.ret ≠ .sknp x ∧ Instr.ret ≠ .ldKey x) ∧
    (∀ x nn, Instr.ret ≠ .rnd x nn) ∧ ok (exec .ret (deep 1)) (fun t => t.pc == 0x202) ∧
    faults (exec .ret (deep 0)) .stackUnderflow := ⟨by simp, by simp, by decide, by decide⟩
theorem witness_StepKeepsInvariant : Inv (about (.step 1 2) 0x2300 (deep 15)) ∧
    ok (step (about (.step 1 2) 0x2300 (deep 15))) (fun t => t.stack.length == 16) :=
  ⟨⟨rfl, by simp [about, deep, State.setStack], by simp [about, deep, State.setStack], by show 0x200 ≤ 0x10FE; omega⟩, by decide⟩

end Sys2Proof.Tests
end

section
/-! PROOFS. Decoding: a word built from an instruction decodes to it, and the unrecognised words digit by digit. -/

namespace Sys2Proof

/-- The encoder's words decode to the instruction they were made from (R75, R79): the operands are the digits. -/
theorem decode_encode (i : Instr) : decode (encode i) = .instr i := by
  cases i with
  | cls | ret => decide
  | jp nnn | call nnn | ldI nnn | jpV0 nnn =>
    simp only [encode, append_addr, decode_digits, decodeDigits, ← addr_digits]
  | seImm x nn | sneImm x nn | ldImm x nn | addImm x nn | rnd x nn =>
    simp only [encode, append_byte, decode_digits, decodeDigits, ← byte_digits]
  | seReg x y | ldReg x y | orReg x y | andReg x y | xorReg x y | addReg x y | subReg x y | shrReg x y
  | subnReg x y | shlReg x y | sneReg x y | drw x y n =>
    simp only [encode, decode_digits, decodeDigits]
  | skp x | sknp x | ldKey x | ldFromDt x | ldDt x | ldSt x | addI x | ldFont x | ldBcd x | storeRegs x
  | loadRegs x =>
    rw [encode, append_byte, decode_digits]
    rfl

/-- The table of R76 on a word written digit by digit. -/
theorem unrecognised_digits (op x y n : Nibble) :
    Machine.Unrecognised (op ++ x ++ y ++ n) ↔
      (op = 0x0#4 ∧ ¬(x = 0x0#4 ∧ y = 0xE#4 ∧ n = 0x0#4) ∧ ¬(x = 0x0#4 ∧ y = 0xE#4 ∧ n = 0xE#4)) ∨
      (op = 0x5#4 ∧ n ≠ 0x0#4) ∨
      (op = 0x8#4 ∧ n ∈ [0x8#4, 0x9#4, 0xA#4, 0xB#4, 0xC#4, 0xD#4, 0xF#4]) ∨
      (op = 0x9#4 ∧ n ≠ 0x0#4) ∨
      (op = 0xE#4 ∧ (y, n) ∉ [(0x9#4, 0xE#4), (0xA#4, 0x1#4)]) ∨
      (op = 0xF#4 ∧ (y, n) ∉ [(0x0#4, 0x7#4), (0x0#4, 0xA#4), (0x1#4, 0x5#4), (0x1#4, 0x8#4), (0x1#4, 0xE#4),
        (0x2#4, 0x9#4), (0x3#4, 0x3#4), (0x5#4, 0x5#4), (0x6#4, 0x5#4)]) := by
  have hw := toNat_digits op x y n _ rfl
  have hx := x.isLt; have hy := y.isLt; have hn := n.isLt
  have hop : (op ++ x ++ y ++ n : Word).toNat / 4096 = op.toNat := by omega
  have hlow : (op ++ x ++ y ++ n : Word).toNat % 16 = n.toNat := by omega
  have hbyte (k : Nat) : (op ++ x ++ y ++ n : Word).toNat % 256 = k ↔ y.toNat = k / 16 ∧ n.toNat = k % 16 := by omega
  simp only [Machine.Unrecognised, hop, hlow, hbyte, List.mem_cons, List.not_mem_nil, or_false, Prod.mk.injEq, ne_eq,
    ← BitVec.toNat_inj, BitVec.toNat_ofNat, Nat.reduceAdd, Nat.reducePow, Nat.reduceMod, Nat.reduceDiv]
  refine or_congr ?_ Iff.rfl
  omega

/-- A word of the table of R76 is rejected under its own name. -/
theorem decode_of_unrecognised {w : Word} (h : Machine.Unrecognised w) : decode w = .unknown w := by
  rw [word_digits w] at h ⊢
  generalize fieldOp w = op, fieldX w = x, fieldY w = y, fieldN w = n at h ⊢
  rw [decode_digits]
  obtain ⟨rfl, hn⟩ | ⟨rfl, hn⟩ | ⟨rfl, hn⟩ | ⟨rfl, hn⟩ | ⟨rfl, hn⟩ | ⟨rfl, hn⟩ := (unrecognised_digits op x y n).1 h
  case inr.inr.inl =>
    simp only [List.mem_cons, List.not_mem_nil, or_false] at hn
    obtain rfl | rfl | rfl | rfl | rfl | rfl | rfl := hn <;> rfl
  -- In the other classes every arm of the decoder but the last contradicts the condition of the class.
  all_goals
    dsimp only [decodeDigits]
    split <;> simp_all

end Sys2Proof
end

section
/-! PROOFS. The frame of a state change, and what the instructions of control flow do to `pc` and the stack. -/

namespace Sys2Proof.Machine

variable {s t u : State} {parts parts' : List Part} {regs regs' : List Reg}

/-- A change within a frame followed by a change within another is within both. -/
theorem AgreesBut.trans (h : AgreesBut parts regs s t) (h' : AgreesBut parts' regs' t u) :
    AgreesBut (parts ++ parts') (regs ++ regs') s u := by
  constructor <;> simp only [List.mem_append, not_or, and_imp]
  case reg => exact fun k hk hk' => (h'.reg k hk').trans (h.reg k hk)
  case pc => exact fun hp hp' => (h'.pc hp').trans (h.pc hp)
  case i => exact fun hp hp' => (h'.i hp').trans (h.i hp)
  case memory => exact fun hp hp' a => (h'.memory hp' a).trans (h.memory hp a)
  case stack => exact fun hp hp' => (h'.stack hp').trans (h.stack hp)
  case dt => exact fun hp hp' => (h'.dt hp').trans (h.dt hp)
  case st => exact fun hp hp' => (h'.st hp').trans (h.st hp)
  case fb => exact fun hp hp' => (h'.fb hp').trans (h.fb hp)
  case host =>
    intro hp hp'
    obtain ⟨hkeys, hrnd, hschedule, hfresh⟩ := h.host hp
    obtain ⟨hkeys', hrnd', hschedule', hfresh'⟩ := h'.host hp'
    exact ⟨hkeys'.trans hkeys, hrnd'.trans hrnd, hschedule'.trans hschedule, hfresh'.trans hfresh⟩

/-- A frame may be widened. -/
theorem AgreesBut.mono (h : AgreesBut parts regs s t) (hp : parts ⊆ parts') (hr : regs ⊆ regs') :
    AgreesBut parts' regs' s t where
  reg k hk := h.reg k (mt (@hr k) hk)
  pc := h.pc ∘ mt (@hp _)
  i := h.i ∘ mt (@hp _)
  memory := h.memory ∘ mt (@hp _)
  stack := h.stack ∘ mt (@hp _)
  dt := h.dt ∘ mt (@hp _)
  st := h.st ∘ mt (@hp _)
  fb := h.fb ∘ mt (@hp _)
  host := h.host ∘ mt (@hp _)

variable (s)

/-- A write of `pc` changes `pc` alone. -/
theorem agreesBut_setPc (a : Word) : AgreesBut [.pc] [] s (s.setPc a) := by
  constructor <;> simp

/-- A write of the stack changes the stack alone. -/
theorem agreesBut_setStack (l : List Word) : AgreesBut [.stack] [] s (s.setStack l) := by
  constructor <;> simp

/-- Latching a STEP's inputs is the host's side alone (R8). -/
theorem agreesBut_latch (keys : KeySet) (rnd : Byte) : AgreesBut [.host] [] s (s.latch keys rnd) := by
  constructor <;> simp

/-- Taking an operation from the schedule is the host's side only. -/
theorem sameMachine_nextOp : SameMachine s s.nextOp.2 := by
  obtain ⟨hv, hpc, hi, hmemory, hstack, hdt, hst, hfb⟩ := s.nextOp_machine
  constructor <;> simp [State.reg, *]

/-- A 12-bit address is the same number as a 16-bit word (R73). -/
@[simp] theorem zext16_toNat (nnn : Addr) : (zext16 nnn).toNat = nnn.toNat :=
  BitVec.toNat_setWidth_of_le (by decide)

/-- A byte is the same number as a 16-bit addend (R98, R131). -/
@[simp] theorem byte16_toNat (b : Byte) : (byte16 b).toNat = b.toNat :=
  BitVec.toNat_setWidth_of_le (by decide)

/-- The target of BNNN does not wrap in 16 bits (R98). -/
theorem zext16_add_byte16_toNat (nnn : Addr) (b : Byte) :
    (zext16 nnn + byte16 b).toNat = nnn.toNat + b.toNat := by
  have := nnn.isLt; have := b.isLt
  rw [BitVec.toNat_add, zext16_toNat, byte16_toNat]; omega

/-- The common advance does not wrap at a `pc` that can be fetched from (R90). -/
theorem toNat_add_two {pc : Word} (h : pc.toNat ≤ 4094) : (pc + 2).toNat = pc.toNat + 2 := by
  bv_omega

/-- The skip of 3XNN and 5XY0: it writes `pc` alone, and compares numbers (R94, R96, R100). -/
theorem skipIf_beq_spec (a b : Byte) :
    ∃ t, (.next (s.skipIf (a == b)) : Result) = .next t ∧ AgreesBut [.pc] [] s t ∧
      t.pc = (if a.toNat = b.toNat then s.pc + 2 else s.pc) :=
  ⟨_, rfl, agreesBut_setPc s _, by by_cases h : a = b <;> simp [h, BitVec.toNat_inj]⟩

/-- The skip of 4XNN and 9XY0: it writes `pc` alone, and compares numbers (R95, R97, R100). -/
theorem skipIf_bne_spec (a b : Byte) :
    ∃ t, (.next (s.skipIf (a != b)) : Result) = .next t ∧ AgreesBut [.pc] [] s t ∧
      t.pc = (if a.toNat = b.toNat then s.pc else s.pc + 2) :=
  ⟨_, rfl, agreesBut_setPc s _, by by_cases h : a = b <;> simp [h, BitVec.toNat_inj]⟩

/-- A return with a top entry (R91). -/
theorem exec_ret_cons {e : Word} {rest : List Word} (h : s.stack = e :: rest) :
    exec .ret s = .next ((s.setStack rest).setPc e) := by
  simp [exec, execRet, State.pop, h]

/-- A return on an empty stack (R91). -/
theorem exec_ret_nil (h : s.stack = []) : exec .ret s = .fault .stackUnderflow := by
  simp [exec, execRet, State.pop, raiseFault, h]

/-- When the host's next operation is a STEP, a step is that STEP. -/
theorem step_of_nextIsStep {keys : KeySet} {rnd : Byte} (h : NextIsStep s keys rnd) :
    step s = stepInstr keys rnd s.nextOp.2 := by
  simp only [step, h, applyOp]

/-- A STEP at a `pc` beyond 4094 faults at fetch (R90, R180). -/
theorem stepInstr_of_pc_gt (keys : KeySet) (rnd : Byte) (h : 4094 < s.pc.toNat) :
    stepInstr keys rnd s = .fault (.fetchOutOfBounds s.pc.toNat) := by
  simp [stepInstr, State.fetch_eq_none.2 h, raiseFault]

/-- A STEP at a `pc` within memory applies the effect of the word there to the advanced state (R90). -/
theorem stepInstr_of_pc_le (keys : KeySet) (rnd : Byte) (h : s.pc.toNat ≤ 4094) :
    stepInstr keys rnd s =
      execDecoded (decode (s.memory.readWord s.pc.toNat)) ((s.latch keys rnd).setPc (s.pc + 2)) := by
  simp [stepInstr, State.fetch_eq_some.2 ⟨h, rfl⟩]

end Sys2Proof.Machine
end

section
/-! PROOFS. The statements of 40_control_flow.md. -/

namespace Sys2Proof.Machine

/-- Settles O14: each jump writes `pc` alone, with a target that fits 16 bits. -/
theorem jumpsSetPc : Obligations.JumpsSetPc := fun nnn =>
  ⟨decode_encode (.jp nnn), decode_encode (.jpV0 nnn), fun s =>
    ⟨⟨_, rfl, zext16_toNat nnn, agreesBut_setPc s _⟩,
      ⟨_, rfl, zext16_add_byte16_toNat nnn (s.reg 0), agreesBut_setPc s _⟩⟩⟩

/-- Settles O16, by the two forms of the stack. -/
theorem returnPopsIntoPc : Obligations.ReturnPopsIntoPc :=
  ⟨decode_encode .ret, fun s =>
    ⟨fun e rest h => ⟨_, exec_ret_cons s h, rfl, rfl,
        ((agreesBut_setStack s rest).trans (agreesBut_setPc _ e)).mono (by simp) (by simp)⟩,
      exec_ret_nil s⟩⟩

/-- Settles O18: a skip writes `pc` alone; 5XYN and 9XYN with another N are words of the table of R76. -/
theorem registerSkips : Obligations.RegisterSkips :=
  ⟨fun x nn => ⟨decode_encode (.seImm x nn), decode_encode (.sneImm x nn), fun s =>
      ⟨skipIf_beq_spec s (s.reg x) nn, skipIf_bne_spec s (s.reg x) nn⟩⟩,
    fun x y => ⟨decode_encode (.seReg x y), decode_encode (.sneReg x y), fun n hn =>
      ⟨decode_of_unrecognised ((unrecognised_digits _ x y n).2 (.inr (.inl ⟨rfl, hn⟩))),
        decode_of_unrecognised ((unrecognised_digits _ x y n).2 (.inr (.inr (.inr (.inl ⟨rfl, hn⟩)))))⟩, fun s =>
      ⟨skipIf_beq_spec s (s.reg x) (s.reg y), skipIf_bne_spec s (s.reg x) (s.reg y)⟩⟩⟩

/-- Settles O39: the decoder rejects every word of the table of R76, and a rejected word has no effect. -/
theorem unrecognisedWordIsNoOp : Obligations.UnrecognisedWordIsNoOp := by
  intro s keys rnd hstep
  obtain ⟨-, hpc, -, hmemory, -⟩ := s.nextOp_machine
  rw [step_of_nextIsStep s hstep]
  constructor
  · intro hle hw
    have hrun := stepInstr_of_pc_le s.nextOp.2 keys rnd (hpc ▸ hle)
    have hdecode : decode (s.memory.readWord s.pc.toNat) = .unknown _ := decode_of_unrecognised hw
    rw [hpc, hmemory, hdecode] at hrun
    exact ⟨_, hrun, toNat_add_two hle,
      (((sameMachine_nextOp s).trans (agreesBut_latch _ keys rnd)).trans (agreesBut_setPc _ _)).mono
        (by simp) (by simp)⟩
  · intro hgt
    rw [stepInstr_of_pc_gt s.nextOp.2 keys rnd (hpc ▸ hgt), hpc]

end Sys2Proof.Machine
end

section
/-! PROOFS. Register writes and the flag write after them: the frame, what each register holds then, and the flag
values as numbers. -/

namespace Sys2Proof.Machine

variable (s : State) {x : Reg}

/-- A register write changes that register alone. -/
theorem agreesBut_setReg (k : Reg) (b : Byte) : AgreesBut [] [k] s (s.setReg k b) := by
  constructor <;> simp +contextual

/-- A written register holds the value written, VF included (R21, R22). -/
theorem setReg_reg_self (k : Reg) (b : Byte) : (s.setReg k b).reg k = b := by simp

/-- A result and then a flag change two registers alone (R122). -/
theorem agreesBut_setReg_setFlag (k : Reg) (b : Byte) (c : Bool) :
    AgreesBut [] [k, VF] s ((s.setReg k b).setFlag c) :=
  (agreesBut_setReg s k b).trans (agreesBut_setReg _ VF (flagByte c))

/-- The flag write leaves a result that is not in VF. -/
theorem setReg_setFlag_reg_self (h : x ≠ VF) (b : Byte) (c : Bool) : ((s.setReg x b).setFlag c).reg x = b := by
  simp [h]

/-- The flag survives, whatever register the result went to: it is written last (R24, R122). -/
theorem setReg_setFlag_reg_VF (k : Reg) (b : Byte) (c : Bool) :
    ((s.setReg k b).setFlag c).reg VF = flagByte c :=
  setReg_reg_self _ VF (flagByte c)

theorem flagByte_carryAdd (a b : Byte) : flagByte (carryAdd a b) = if a.toNat + b.toNat > 255 then 1 else 0 := by
  simp only [flagByte, carryAdd, decide_eq_true_eq]

theorem flagByte_noBorrow (a b : Byte) : flagByte (noBorrow a b) = if a.toNat < b.toNat then 0 else 1 := by
  simp only [flagByte, noBorrow, decide_eq_true_eq, ← Nat.not_lt, ite_not]

theorem flagByte_shiftedOutRight_toNat (b : Byte) : (flagByte (shiftedOutRight b)).toNat = b.toNat % 2 := by
  simp only [flagByte_toNat, shiftedOutRight, BitVec.getLsbD, Nat.testBit_zero, decide_eq_true_eq]
  split <;> omega

/-- Bit 7 of a byte is what it holds beyond 127 (R120). -/
theorem flagByte_shiftedOutLeft_toNat (b : Byte) : (flagByte (shiftedOutLeft b)).toNat = b.toNat / 128 := by
  have hb := b.isLt
  simp only [flagByte_toNat, shiftedOutLeft, BitVec.getLsbD, Nat.testBit_eq_decide_div_mod_eq, decide_eq_true_eq]
  split <;> omega

/-- The 8-bit difference as an integer modulo 256 (R117, R119). -/
theorem toNat_sub_eq_emod (a b : Byte) : ((a - b).toNat : Int) = (a.toNat - b.toNat : Int) % 256 := by
  have hb := b.isLt
  rw [BitVec.toNat_sub]
  omega

/-- The subtraction of 8XY5 and of 8XY7, from whichever operand is the minuend (R117, R119). -/
theorem sub_spec (k : Reg) (a b : Byte) :
    ∃ t, (.next ((s.setReg k (a - b)).setFlag (noBorrow a b)) : Result) = .next t ∧ AgreesBut [] [k, VF] s t ∧
      (k ≠ VF → ((t.reg k).toNat : Int) = (a.toNat - b.toNat : Int) % 256) ∧
      t.reg VF = (if a.toNat < b.toNat then 0 else 1) :=
  ⟨_, rfl, agreesBut_setReg_setFlag s k _ _,
    fun h => by rw [setReg_setFlag_reg_self s h, toNat_sub_eq_emod],
    by rw [setReg_setFlag_reg_VF, flagByte_noBorrow]⟩

end Sys2Proof.Machine
end

section
/-! PROOFS. The statements of 41_alu.md. -/

namespace Sys2Proof.Machine

/-- Settles O7: each writes v[X] alone, with NN or with the 8-bit sum. -/
theorem immediateLoadAndAdd : Obligations.ImmediateLoadAndAdd := fun x nn =>
  ⟨decode_encode (.ldImm x nn), decode_encode (.addImm x nn), fun s =>
    ⟨⟨_, rfl, setReg_reg_self s x nn, agreesBut_setReg s x nn⟩,
      ⟨_, rfl, by rw [setReg_reg_self, BitVec.toNat_add], agreesBut_setReg s x _⟩⟩⟩

/-- Settles O8: each writes v[X] alone, with a value given bit by bit. -/
theorem copyAndLogic : Obligations.CopyAndLogic := fun x y =>
  ⟨decode_encode (.ldReg x y), decode_encode (.orReg x y), decode_encode (.andReg x y), decode_encode (.xorReg x y),
    fun s =>
    ⟨⟨_, rfl, setReg_reg_self s x (s.reg y), agreesBut_setReg s x _⟩,
      ⟨_, rfl, agreesBut_setReg s x _, fun k _ => by rw [setReg_reg_self, BitVec.getLsbD_or]⟩,
      ⟨_, rfl, agreesBut_setReg s x _, fun k _ => by rw [setReg_reg_self, BitVec.getLsbD_and]⟩,
      ⟨_, rfl, agreesBut_setReg s x _, fun k _ => by rw [setReg_reg_self, BitVec.getLsbD_xor]⟩⟩⟩

/-- Settles O9: the 8-bit sum of the old values, then the carry. -/
theorem addSetsCarry : Obligations.AddSetsCarry := fun x y =>
  ⟨decode_encode (.addReg x y), fun s =>
    ⟨_, rfl, agreesBut_setReg_setFlag s x _ _,
      fun h => by rw [setReg_setFlag_reg_self s h, BitVec.toNat_add],
      by rw [setReg_setFlag_reg_VF, flagByte_carryAdd]⟩⟩

/-- Settles O10: one subtraction, with the operands in either order. -/
theorem subtractSetsInvertedBorrow : Obligations.SubtractSetsInvertedBorrow := fun x y =>
  ⟨decode_encode (.subReg x y), decode_encode (.subnReg x y), fun s =>
    ⟨sub_spec s x (s.reg x) (s.reg y), sub_spec s x (s.reg y) (s.reg x)⟩⟩

/-- Settles O11: the old v[Y] halved or doubled, then the bit it lost. -/
theorem shiftsMoveTheLostBitToVF : Obligations.ShiftsMoveTheLostBitToVF := fun x y =>
  ⟨decode_encode (.shrReg x y), decode_encode (.shlReg x y), fun s =>
    ⟨⟨_, rfl, agreesBut_setReg_setFlag s x _ _,
        fun h => by rw [setReg_setFlag_reg_self s h, BitVec.toNat_ushiftRight, Nat.shiftRight_one],
        by rw [setReg_setFlag_reg_VF, flagByte_shiftedOutRight_toNat]⟩,
      ⟨_, rfl, agreesBut_setReg_setFlag s x _ _,
        fun h => by rw [setReg_setFlag_reg_self s h, BitVec.toNat_shiftLeft, Nat.shiftLeft_eq, Nat.mul_comm],
        by rw [setReg_setFlag_reg_VF, flagByte_shiftedOutLeft_toNat]⟩⟩⟩

end Sys2Proof.Machine
end

section
/-! PROOFS. The index register, the guarded access and the block transfers of 42_index_memory.md: the frame of each
write, and what each address and each register holds after a block. -/

namespace Sys2Proof.Machine

variable (s : State)

/-- A write of `i` changes `i` alone. -/
theorem agreesBut_setI (a : Word) : AgreesBut [.i] [] s (s.setI a) := by
  constructor <;> simp

/-- A write of memory changes memory alone. -/
theorem agreesBut_setMemory (m : Memory) : AgreesBut [.memory] [] s (s.setMemory m) := by
  constructor <;> simp

/-- A block write of registers changes only the registers the block reaches (R135). -/
theorem agreesBut_setRegs {regs : List Reg} {bs : List Byte} (h : ∀ k, k ∉ regs → bs.length ≤ k.toNat) :
    AgreesBut [] regs s (s.setRegs bs) := by
  constructor
  case reg =>
    intro k hk
    rw [State.setRegs_reg, List.getElem?_eq_none (h k hk), Option.getD_none]
  all_goals simp

/-- The registers of a block are those numbered up to X (R134, R135). -/
theorem mem_regsUpTo {x k : Reg} : k ∈ regsUpTo x ↔ k.toNat ≤ x.toNat := by
  have hx := x.isLt
  simp only [regsUpTo, List.mem_map, List.mem_range]
  constructor
  · rintro ⟨n, hn, rfl⟩
    rw [BitVec.toNat_ofNat, Nat.mod_eq_of_lt] <;> omega
  · exact fun h => ⟨k.toNat, Nat.lt_succ_of_le h, by simp⟩

/-- The glyph address does not wrap (R132). -/
theorem fontAddr_toNat (b : Byte) : (fontAddr b).toNat = 0x050 + 5 * (b.toNat % 16) := by
  simp only [fontAddr, fontBase, glyphSize, BitVec.toNat_ofNat]
  omega

/-- The sum of FX1E, modulo 65536 (R131). -/
theorem add_byte16_toNat (a : Word) (b : Byte) : (a + byte16 b).toNat = (a.toNat + b.toNat) % 65536 := by
  rw [BitVec.toNat_add, byte16_toNat]

theorem flagByte_carryIndex (a : Word) (b : Byte) :
    flagByte (carryIndex a b) = if a.toNat + b.toNat > 65535 then 1 else 0 := by
  simp only [flagByte, carryIndex, decide_eq_true_eq]

variable {s} {t : State} {n : Nat}

/-- An access whose highest address is in memory completes (R65). -/
theorem guarded_of_le (h : s.effAddr n ≤ 4095) : s.guarded (n + 1) t = .next t :=
  State.guarded_eq_next.2 ⟨rfl, .inr (Nat.succ_le_succ h)⟩

/-- An access whose highest address is beyond memory reports that address (R65, R183). -/
theorem guarded_of_gt (h : s.effAddr n > 4095) : s.guarded (n + 1) t = .fault (.memOutOfBounds (s.effAddr n)) :=
  State.guarded_eq_fault.2 ⟨n.succ_ne_zero, Nat.succ_lt_succ h, rfl⟩

/-- `i` moved past a block that lies in memory does not wrap (R134, R135). -/
theorem effAddr_succ_toNat (h : s.effAddr n ≤ 4095) :
    (BitVec.ofNat 16 (s.effAddr (n + 1))).toNat = s.i.toNat + n + 1 := by
  rw [BitVec.toNat_ofNat, Nat.mod_eq_of_lt]
  · rfl
  · exact Nat.lt_of_le_of_lt (Nat.succ_le_succ h) (by decide)

section
variable {m : Memory} (hwf : m.wf = true) {a : Nat} {bs : List Byte} (ha : a + bs.length ≤ 4096)
include hwf ha

/-- A block store leaves its k-th byte at the k-th address (R57). -/
theorem read_storeBlock_inside {k : Nat} {b : Byte} (hk : bs[k]? = some b) :
    (m.storeBlock a bs).read (a + k) = b := by
  rw [Memory.read_storeBlock hwf ha, if_pos (Nat.le_add_right a k), Nat.add_sub_cancel_left, hk, Option.getD_some]

/-- The same for a byte given as a number. -/
theorem read_storeBlock_ofNat {k d : Nat} (hk : bs[k]? = some (BitVec.ofNat 8 d)) (hd : d < 256) :
    ((m.storeBlock a bs).read (a + k)).toNat = d := by
  rw [read_storeBlock_inside hwf ha hk, BitVec.toNat_ofNat, Nat.mod_eq_of_lt hd]

/-- A block store leaves every other address as it was (R57). -/
theorem read_storeBlock_outside {a' : Nat} (h : a' < a ∨ a + bs.length ≤ a') :
    (m.storeBlock a bs).read a' = m.read a' := by
  rw [Memory.read_storeBlock hwf ha]
  split
  · rw [List.getElem?_eq_none (by omega), Option.getD_none]
  · rfl

end

/-- The registers up to v[X] are those in the block (R134, R135). -/
theorem lt_blockLen {x k : Reg} (h : k.toNat ≤ x.toNat) : k.toNat < blockLen x := Nat.lt_succ_of_le h

/-- The block FX55 stores has v[0] to v[X], in order (R134). -/
theorem regList_take_getElem? {x k : Reg} (h : k.toNat ≤ x.toNat) :
    (s.regList.take (blockLen x))[k.toNat]? = some (s.reg k) := by
  rw [List.getElem?_take_of_lt (lt_blockLen h), s.regList_getElem?]

theorem regList_take_length (x : Reg) : (s.regList.take (blockLen x)).length = x.toNat + 1 := by
  rw [List.length_take, s.regList_length]
  exact Nat.min_eq_left x.isLt

/-- A register of a block loaded from memory holds the byte at its address (R135). -/
theorem setRegs_loadBlock_reg {x k : Reg} (h : k.toNat ≤ x.toNat) (m : Memory) (a : Nat) :
    (s.setRegs (m.loadBlock a (blockLen x))).reg k = m.read (a + k.toNat) := by
  rw [State.setRegs_reg, Memory.loadBlock_getElem?, if_pos (lt_blockLen h), Option.getD_some]

end Sys2Proof.Machine
end

section
/-! PROOFS. The statements of 42_index_memory.md. -/

namespace Sys2Proof.Machine

/-- Settles O19: each writes `i` alone, with an address that fits 16 bits. -/
theorem indexLoads : Obligations.IndexLoads :=
  ⟨fun nnn => ⟨decode_encode (.ldI nnn), fun s => ⟨_, rfl, zext16_toNat nnn, agreesBut_setI s _⟩⟩,
    fun x => ⟨decode_encode (.ldFont x), fun s => ⟨_, rfl, fontAddr_toNat (s.reg x), agreesBut_setI s _⟩⟩⟩

/-- Settles O20: the sum of the old values into `i`, then its carry into VF. -/
theorem addToIndexSetsCarry : Obligations.AddToIndexSetsCarry := fun x =>
  ⟨decode_encode (.addI x), fun s =>
    ⟨_, rfl, (agreesBut_setI s _).trans (agreesBut_setReg _ VF _), add_byte16_toNat s.i (s.reg x),
      (setReg_reg_self _ VF _).trans (flagByte_carryIndex s.i (s.reg x))⟩⟩

/-- Settles O21: a block store of the three digits, each of which fits a byte. -/
theorem decimalDigitsStored : Obligations.DecimalDigitsStored := by
  refine fun x => ⟨decode_encode (.ldBcd x), fun s => ⟨fun hwf hle => ?_, guarded_of_gt⟩⟩
  have hdigits : s.effAddr 0 + (decimalDigits (s.reg x)).length ≤ 4096 := Nat.succ_le_succ hle
  have hbyte := (s.reg x).isLt
  refine ⟨_, guarded_of_le hle, ?hundreds, ?tens, ?units, fun a ha => ?outside, agreesBut_setMemory s _⟩
  case hundreds => exact read_storeBlock_ofNat hwf hdigits (k := 0) rfl (by omega)
  case tens => exact read_storeBlock_ofNat hwf hdigits (k := 1) rfl (by omega)
  case units => exact read_storeBlock_ofNat hwf hdigits (k := 2) rfl (by omega)
  case outside => exact read_storeBlock_outside hwf hdigits ha

/-- Settles O22: a block store of v[0] to v[X], then `i` past it. -/
theorem registerBlockStored : Obligations.RegisterBlockStored := by
  refine fun x => ⟨decode_encode (.storeRegs x), fun s => ⟨fun hwf hle => ?_, guarded_of_gt⟩⟩
  have hblock : s.effAddr 0 + (s.regList.take (blockLen x)).length ≤ 4096 := by
    rw [regList_take_length]; exact Nat.succ_le_succ hle
  refine ⟨_, guarded_of_le hle, fun k hk => ?inside, fun a ha => ?outside, effAddr_succ_toNat hle,
    (agreesBut_setMemory s _).trans (agreesBut_setI _ _)⟩
  case inside => exact read_storeBlock_inside hwf hblock (regList_take_getElem? hk)
  case outside =>
    refine read_storeBlock_outside hwf hblock (ha.imp_right fun h => ?_)
    rw [regList_take_length]; exact h

/-- Settles O23: a block write of v[0] to v[X] from memory, then `i` past it. -/
theorem registerBlockLoaded : Obligations.RegisterBlockLoaded := by
  refine fun x => ⟨decode_encode (.loadRegs x), fun s => ⟨fun hle => ?_, guarded_of_gt⟩⟩
  have hframe : ∀ k, k ∉ regsUpTo x → (s.memory.loadBlock (s.effAddr 0) (blockLen x)).length ≤ k.toNat := by
    intro k hk
    rw [Memory.loadBlock_length]
    exact Nat.lt_of_not_le (mt mem_regsUpTo.2 hk)
  exact ⟨_, guarded_of_le hle, fun k hk => setRegs_loadBlock_reg hk s.memory (s.effAddr 0), effAddr_succ_toNat hle,
    ((agreesBut_setRegs s hframe).trans (agreesBut_setI _ _)).mono (by simp) (by simp)⟩

end Sys2Proof.Machine
end

section
/-! PROOFS. The display: the frame of a write of it, and what a draw leaves in each pixel and in the collision bit. -/

namespace Sys2Proof.Machine

/-- A flag is 0 or 1 as a byte, and 1 when it is set (R22). -/
theorem flagByte_eq_zero_or_one (c : Bool) : flagByte c = 0 ∨ flagByte c = 1 := by cases c <;> decide

theorem flagByte_eq_one_iff (c : Bool) : flagByte c = 1 ↔ c = true := by cases c <;> decide

/-- A display with no lit pixel is the empty one. -/
theorem eq_blankFb_of_unlit {f : Framebuffer} (h : ∀ px py, f.pixel px py = false) : f = blankFb :=
  Framebuffer.ext_pixel fun px py _ _ => (h px py).trans (blankFb_pixel px py).symm

variable (s : State) (x y : Reg) (n : Nibble)

/-- A write of the display changes the display alone. -/
theorem agreesBut_setFb (f : Framebuffer) : AgreesBut [.fb] [] s (s.setFb f) := by
  constructor <;> simp

/-- What DXYN draws: its N bytes from `i` on, onto the display with no collision yet (R151). -/
def State.drawn : Canvas :=
  Canvas.drawSprite (s.spriteX x) (s.spriteY y) (s.memory.loadBlock (s.effAddr 0) n.toNat) ⟨s.fb, false⟩

/-- DXYN is the guarded write of the canvas it draws, the flag last (R151). -/
theorem exec_drw :
    exec (.drw x y n) s = s.guarded n.toNat ((s.setFb (s.drawn x y n).fb).setFlag (s.drawn x y n).hit) := rfl

/-- A sprite starts in a visible row and has at most 15 rows, so it lies in the framebuffer's 46 rows (R154). -/
theorem spriteY_add_length_le : s.spriteY y + (s.memory.loadBlock (s.effAddr 0) n.toNat).length ≤ 46 := by
  have hstart : s.spriteY y < 32 := Nat.mod_lt _ (by decide)
  have hrows := n.isLt
  rw [Memory.loadBlock_length]
  omega

/-- A draw is an exclusive OR of each pixel with the sprite's bit for it (R151, R152). -/
theorem drawn_pixel (px py : Nat) :
    (s.drawn x y n).fb.pixel px py = (s.fb.pixel px py != s.turnsOver x y n px py) := by
  rw [State.drawn, Canvas.drawSprite_pixel _ _ _ (spriteY_add_length_le s y n), State.spriteBit_eq_turnsOver,
    Bool.bne_eq_xor]

/-- A draw collides exactly when it turns a lit pixel over (R153). -/
theorem drawn_hit_iff :
    (s.drawn x y n).hit = true ↔ ∃ px py, s.fb.pixel px py = true ∧ s.turnsOver x y n px py = true := by
  simp only [State.drawn, Canvas.drawSprite_hit _ _ _ (spriteY_add_length_le s y n), State.spriteBit_eq_turnsOver,
    Bool.false_eq_true, false_or, and_comm]

variable {s n}

/-- A draw of no rows, or of rows that lie in memory, completes (R65, R151). -/
theorem exec_drw_of_le (h : n = 0 ∨ s.effAddr (n.toNat - 1) ≤ 4095) :
    exec (.drw x y n) s = .next ((s.setFb (s.drawn x y n).fb).setFlag (s.drawn x y n).hit) := by
  rw [exec_drw]
  refine State.guarded_eq_next.2 ⟨rfl, h.imp (congrArg BitVec.toNat) fun hle => ?_⟩
  unfold State.effAddr at hle
  omega

/-- A draw of rows that reach beyond memory reports the highest address (R65, R151, R183). -/
theorem exec_drw_of_gt (hn : n ≠ 0) (h : s.effAddr (n.toNat - 1) > 4095) :
    exec (.drw x y n) s = .fault (.memOutOfBounds (s.effAddr (n.toNat - 1))) := by
  have hrows : n.toNat ≠ 0 := fun h0 => hn (BitVec.eq_of_toNat_eq h0)
  rw [exec_drw]
  refine State.guarded_eq_fault.2 ⟨hrows, ?_, rfl⟩
  unfold State.effAddr at h
  omega

end Sys2Proof.Machine
end

section
/-! PROOFS. The statements of 43_display.md. -/

namespace Sys2Proof.Machine

/-- Settles O26: the empty display is written, and it is the one display with no lit pixel. -/
theorem clearEmptiesDisplay : Obligations.ClearEmptiesDisplay :=
  ⟨decode_encode .cls, fun s => ⟨_, rfl, blankFb_pixel, agreesBut_setFb s _, fun h => (eq_blankFb_of_unlit h).symm⟩⟩

/-- Settles O27: the drawn canvas is the exclusive OR of the display and the sprite, and its collision bit goes to VF. -/
theorem drawTogglesSpritePixels : Obligations.DrawTogglesSpritePixels := by
  refine fun x y n => ⟨decode_encode (.drw x y n), fun s => ⟨fun hin => ?_, exec_drw_of_gt x y⟩⟩
  refine ⟨_, exec_drw_of_le x y hin, ?pixels, ?flagValue, ?collision,
    (agreesBut_setFb s _).trans (agreesBut_setReg _ VF _)⟩
  case pixels => exact drawn_pixel s x y n
  case flagValue =>
    rw [State.setFlag_eq, setReg_reg_self]
    exact flagByte_eq_zero_or_one _
  case collision =>
    rw [State.setFlag_eq, setReg_reg_self, flagByte_eq_one_iff]
    exact drawn_hit_iff s x y n

end Sys2Proof.Machine
end

section
/-! PROOFS. The timers: the frame of a write of each, and the statement of 44_keys_timers.md about their access. -/

namespace Sys2Proof.Machine

variable (s : State)

/-- A write of `dt` changes `dt` alone. -/
theorem agreesBut_setDt (b : Byte) : AgreesBut [.dt] [] s (s.setDt b) := by
  constructor <;> simp

/-- A write of `st` changes `st` alone. -/
theorem agreesBut_setSt (b : Byte) : AgreesBut [.st] [] s (s.setSt b) := by
  constructor <;> simp

/-- Settles O33: each is one write, of a register or of a timer, with the old value of the other. -/
theorem timerAccess : Obligations.TimerAccess := fun x =>
  ⟨decode_encode (.ldFromDt x), decode_encode (.ldDt x), decode_encode (.ldSt x), fun s =>
    ⟨⟨_, rfl, setReg_reg_self s x s.dt, agreesBut_setReg s x s.dt⟩,
      ⟨_, rfl, s.setDt_dt (s.reg x), agreesBut_setDt s (s.reg x)⟩,
      ⟨_, rfl, s.setSt_st (s.reg x), agreesBut_setSt s (s.reg x)⟩⟩⟩

end Sys2Proof.Machine
end

section
/-! PROOFS. TICK: the count down as a number, the frame of a tick, and the statement of 60_exceptions.md about it. -/

namespace Sys2Proof.Machine

/-- One count down as a number, stopping at zero (R28, R188). -/
theorem countDown_toNat (b : Byte) : (countDown b).toNat = if b.toNat > 0 then b.toNat - 1 else 0 := by
  unfold countDown
  by_cases h : b = 0
  · subst h; rfl
  · have hpos : b.toNat > 0 := BitVec.toNat_pos_of_ne_zero h
    have hle : (1 : Byte) ≤ b := hpos
    rw [if_neg h, if_pos hpos, BitVec.toNat_sub_of_le hle]
    rfl

variable (s : State)

/-- When the host's next operation is TICK, a step is that TICK. -/
theorem step_of_nextIsTick (h : s.nextOp.1 = .tick) : step s = .next s.nextOp.2.tick := by
  simp only [step, h, applyOp]

/-- TICK changes the timers alone (R188). -/
theorem agreesBut_tick : AgreesBut [.dt, .st] [] s s.tick :=
  (agreesBut_setDt s _).trans (agreesBut_setSt _ _)

/-- Settles O34: the step is the TICK, and taking it from the schedule leaves the timers as they were. -/
theorem tickSaturates : Obligations.TickSaturates := by
  intro s htick
  obtain ⟨-, -, -, -, -, hdt, hst, -⟩ := s.nextOp_machine
  refine ⟨_, step_of_nextIsTick s htick, ?delay, ?sound,
    ((sameMachine_nextOp s).trans (agreesBut_tick _)).mono (by simp) (by simp)⟩
  case delay => rw [← hdt]; exact countDown_toNat _
  case sound => rw [← hst]; exact countDown_toNat _

end Sys2Proof.Machine
end

section
/-! PROOFS. The decoder inverted: the word an instruction was decoded from, the words that are rejected, and the
instruction a row of the opcode table stands for. -/

namespace Sys2Proof

variable {op x y n : Nibble}

/-- A digit string that decodes to an instruction is that instruction's word: every arm of the decoder keeps its
digits in the operands (R79). -/
theorem encode_of_decodeDigits {i : Instr} (h : decodeDigits op x y n = .instr i) :
    encode i = op ++ x ++ y ++ n := by
  dsimp only [decodeDigits] at h
  -- Case `h_1` is the leading digit 0, `h_2` the digit 1, and so on; `h_17` is no digit at all.
  split at h
  case h_1 | h_6 | h_9 | h_10 => split at h <;> cases h <;> rfl
  case h_2 | h_3 | h_11 | h_12 => cases h; exact append_addr_digits ..
  case h_4 | h_5 | h_7 | h_8 | h_13 => cases h; exact append_byte_digits ..
  case h_14 => cases h; rfl
  case h_15 | h_16 => split at h <;> cases h <;> exact append_byte ..
  case h_17 => cases h

/-- A digit string that is rejected is in the table of R76. -/
theorem unrecognised_of_decodeDigits {w : Word} (h : decodeDigits op x y n = .unknown w) :
    Machine.Unrecognised (op ++ x ++ y ++ n) := by
  rw [unrecognised_digits]
  dsimp only [decodeDigits] at h
  -- The cases are numbered by the leading digit, as in `encode_of_decodeDigits`.
  split at h
  case h_2 | h_3 | h_4 | h_5 | h_7 | h_8 | h_11 | h_12 | h_13 | h_14 => cases h
  case h_1 | h_6 | h_10 | h_15 | h_16 => split at h <;> simp_all
  case h_9 =>
    refine .inr (.inr (.inl ⟨rfl, ?_⟩))
    split at h <;> cases h
    clear x y
    decide +revert
  case h_17 => clear h; exfalso; revert op; decide

/-- A word that decodes to an instruction is that instruction's word. -/
theorem encode_of_decode {w : Word} {i : Instr} (h : decode w = .instr i) : encode i = w :=
  (encode_of_decodeDigits h).trans (word_digits w).symm

/-- A word that is rejected is in the table of R76. -/
theorem unrecognised_of_decode {w w' : Word} (h : decode w = .unknown w') : Machine.Unrecognised w :=
  word_digits w ▸ unrecognised_of_decodeDigits h

/-- A digit string that fits a row of the table decodes to an instruction of that row: the digits the row fixes
select one arm of the decoder (R72). -/
theorem exists_instr_of_fits {r : Row} (hr : r ∈ opcodeTable) (h : (op ++ x ++ y ++ n) &&& r.mask = r.matchBits) :
    ∃ i : Instr, i.row = r ∧ decodeDigits op x y n = .instr i := by
  rw [word_digits r.mask, word_digits r.matchBits, digits_and, digits_inj] at h
  obtain ⟨hop, hx, hy, hn⟩ := h
  have hfixed (d : Nibble) : d &&& 0xF#4 = d := BitVec.and_allOnes
  revert r
  simp only [opcodeTable, List.cons_append, List.nil_append, List.forall_mem_cons, List.not_mem_nil,
    IsEmpty.forall_iff, implies_true, and_true, fieldOp, fieldX, fieldY, fieldN, BitVec.reduceExtractLsb', hfixed,
    BitVec.and_zero]
  and_intros
  all_goals
    intros
    subst_vars
    exact ⟨_, rfl, rfl⟩

/-- A word that fits two rows has the fixed bits of both, so the rows agree wherever both fix a bit (R72). -/
theorem Row.agree_of_fits {r r' : Row} {w : Word} (h : w &&& r.mask = r.matchBits)
    (h' : w &&& r'.mask = r'.matchBits) : r.matchBits &&& r'.mask = r'.matchBits &&& r.mask := by
  rw [← h, ← h', BitVec.and_assoc, BitVec.and_assoc, BitVec.and_comm r.mask]

/-- Any two rows of the table differ in a bit that both fix (R74). -/
theorem opcodeTable_pairwise_ne :
    opcodeTable.Pairwise fun r r' => r.matchBits &&& r'.mask ≠ r'.matchBits &&& r.mask := by decide

namespace Laws.FitsRow

/-- Every instruction's word fits the instruction's row, which is in the table (R72, R75). -/
theorem statement_holds : ∀ i, Statement i
  | .cls => cls
  | .ret => ret
  | .jp nnn => jp nnn
  | .call nnn => call nnn
  | .seImm x nn => seImm x nn
  | .sneImm x nn => sneImm x nn
  | .seReg x y => seReg x y
  | .ldImm x nn => ldImm x nn
  | .addImm x nn => addImm x nn
  | .ldReg x y => ldReg x y
  | .orReg x y => orReg x y
  | .andReg x y => andReg x y
  | .xorReg x y => xorReg x y
  | .addReg x y => addReg x y
  | .subReg x y => subReg x y
  | .shrReg x y => shrReg x y
  | .subnReg x y => subnReg x y
  | .shlReg x y => shlReg x y
  | .sneReg x y => sneReg x y
  | .ldI nnn => ldI nnn
  | .jpV0 nnn => jpV0 nnn
  | .rnd x nn => rnd x nn
  | .drw x y n => drw x y n
  | .skp x => skp x
  | .sknp x => sknp x
  | .ldKey x => ldKey x
  | .ldFromDt x => ldFromDt x
  | .ldDt x => ldDt x
  | .ldSt x => ldSt x
  | .addI x => addI x
  | .ldFont x => ldFont x
  | .ldBcd x => ldBcd x
  | .storeRegs x => storeRegs x
  | .loadRegs x => loadRegs x

end Laws.FitsRow

end Sys2Proof
end

section
/-! PROOFS. The statements of 30_encoding.md. -/

namespace Sys2Proof

/-- Settles O1: an instruction's word has its operands as digits, and the decoder reads them back. -/
theorem decodeUndoesEncode : Obligations.DecodeUndoesEncode := decode_encode

/-- Settles O2, arm by arm of the decoder. -/
theorem encodeUndoesDecode : Obligations.EncodeUndoesDecode := fun _ _ => encode_of_decode

/-- Settles O3: a decoded word is the encoder's, which fits its row; and the digits a row fixes select its arm. -/
theorem decodeFollowsMatchAndMask : Obligations.DecodeFollowsMatchAndMask := by
  refine ⟨fun w i h => ?_, fun w r hr hfits => ?_⟩
  · obtain ⟨-, hmem, hfits⟩ := Laws.FitsRow.statement_holds i
    rw [Row.fits, decide_eq_true_eq, encode_of_decode h] at hfits
    exact ⟨hmem, hfits⟩
  · rw [word_digits w] at hfits
    exact exists_instr_of_fits hr hfits

/-- Settles O4: two rows one word fits would agree on the bits both fix, and no two rows of the table do. -/
theorem opcodeRowsAreDisjoint : Obligations.OpcodeRowsAreDisjoint :=
  ⟨rfl, opcodeTable_pairwise_ne.imp fun hne _ ⟨h, h'⟩ => hne (Row.agree_of_fits h h')⟩

/-- Settles O5: the table of R76 is rejected, and the decoder's rejecting arms are in the table. -/
theorem unrecognisedWordsAreListed : Obligations.UnrecognisedWordsAreListed := fun _ =>
  ⟨⟨unrecognised_of_decode, decode_of_unrecognised⟩,
    ⟨fun ⟨_, h⟩ => unrecognised_of_decode h, fun h => ⟨_, decode_of_unrecognised h⟩⟩⟩

/-- Settles O6, by running the decoder on the fifteen words. -/
theorem wordsDecodeAsListed : Obligations.WordsDecodeAsListed := by
  unfold Obligations.WordsDecodeAsListed
  decide

end Sys2Proof
end

section
/-! PROOFS. What an instruction that completes leaves: the form of those that can fault, the frame of all 34, and what
becomes of memory and of the stack. -/

namespace Sys2Proof.Machine

variable {s t : State} {i : Instr}

/-- A return completes exactly on a stack with a top entry, which it pops into `pc` (R91). -/
theorem exec_ret_eq_next :
    exec .ret s = .next t ↔ ∃ e rest, s.stack = e :: rest ∧ t = (s.setStack rest).setPc e := by
  cases h : s.stack with
  | nil => simp [exec_ret_nil s h]
  | cons e rest => simp [exec_ret_cons s h, eq_comm (b := t)]

/-- A call on a stack with room pushes `pc` (R93). -/
theorem exec_call_of_lt (nnn : Addr) (h : s.stack.length < 16) :
    exec (.call nnn) s = .next ((s.setStack (s.pc :: s.stack)).setPc (zext16 nnn)) := by
  obtain ⟨-, hpush⟩ | ⟨hfull, -⟩ := s.push_cases s.pc fun s' => .next (s'.setPc (zext16 nnn))
  · exact hpush
  · omega

/-- A call on a full stack (R93). -/
theorem exec_call_of_ge (nnn : Addr) (h : 16 ≤ s.stack.length) : exec (.call nnn) s = .fault .stackOverflow := by
  obtain ⟨hroom, -⟩ | ⟨-, hpush⟩ := s.push_cases s.pc fun s' => .next (s'.setPc (zext16 nnn))
  · omega
  · exact hpush

/-- A call completes exactly on a stack with room (R93). -/
theorem exec_call_eq_next {nnn : Addr} :
    exec (.call nnn) s = .next t ↔
      s.stack.length < 16 ∧ t = (s.setStack (s.pc :: s.stack)).setPc (zext16 nnn) := by
  by_cases h : s.stack.length < 16
  · simp [exec_call_of_lt nnn h, h, eq_comm (b := t)]
  · simp [exec_call_of_ge nnn (Nat.not_lt.1 h), h]

/-- FX0A with no key held goes back to itself (R163). -/
theorem exec_ldKey_of_none (x : Reg) (h : s.keys = 0) : exec (.ldKey x) s = .next (s.setPc (s.pc - 2)) :=
  congrArg _ (if_pos h)

/-- FX0A with a key held takes the key that KEYSEL chooses (R163). -/
theorem exec_ldKey_of_held (x : Reg) (h : s.keys ≠ 0) :
    exec (.ldKey x) s = .next (s.setReg x (keysel s.keys)) :=
  congrArg _ (if_neg h)

/-- The parts of State, the registers aside, that an instruction may write. -/
def writtenParts : Instr → List Part
  | .cls | .drw _ _ _ => [.fb]
  | .ret | .call _ => [.stack, .pc]
  | .jp _ | .jpV0 _ | .seImm _ _ | .sneImm _ _ | .seReg _ _ | .sneReg _ _ | .skp _ | .sknp _ | .ldKey _ => [.pc]
  | .ldI _ | .addI _ | .ldFont _ | .loadRegs _ => [.i]
  | .ldDt _ => [.dt]
  | .ldSt _ => [.st]
  | .ldBcd _ => [.memory]
  | .storeRegs _ => [.memory, .i]
  | .ldImm _ _ | .addImm _ _ | .ldReg _ _ | .orReg _ _ | .andReg _ _ | .xorReg _ _ | .addReg _ _ | .subReg _ _
  | .shrReg _ _ | .subnReg _ _ | .shlReg _ _ | .rnd _ _ | .ldFromDt _ => []

/-- The registers an instruction may write: its destination, and VF where it writes a flag. -/
def writtenRegs : Instr → List Reg
  | .ldImm x _ | .addImm x _ | .ldReg x _ | .orReg x _ | .andReg x _ | .xorReg x _ | .rnd x _ | .ldFromDt x
  | .ldKey x => [x]
  | .addReg x _ | .subReg x _ | .shrReg x _ | .subnReg x _ | .shlReg x _ => [x, VF]
  | .addI _ | .drw _ _ _ => [VF]
  | .loadRegs x => regsUpTo x
  | .cls | .ret | .jp _ | .call _ | .jpV0 _ | .seImm _ _ | .sneImm _ _ | .seReg _ _ | .sneReg _ _ | .skp _
  | .sknp _ | .ldI _ | .ldFont _ | .ldDt _ | .ldSt _ | .ldBcd _ | .storeRegs _ => []

/-- A block load writes the registers up to v[X] alone (R135). -/
theorem agreesBut_setRegs_loadBlock (x : Reg) (m : Memory) (a : Nat) :
    AgreesBut [] (regsUpTo x) s (s.setRegs (m.loadBlock a (blockLen x))) := by
  refine agreesBut_setRegs s fun k hk => ?_
  rw [Memory.loadBlock_length]
  exact Nat.lt_of_not_le (mt mem_regsUpTo.2 hk)

/-- The frame of every instruction. -/
theorem exec_frame (h : exec i s = .next t) : AgreesBut (writtenParts i) (writtenRegs i) s t := by
  cases i with
  | cls => cases h; exact agreesBut_setFb s _
  | ret =>
    obtain ⟨e, rest, -, rfl⟩ := exec_ret_eq_next.1 h
    exact (agreesBut_setStack s rest).trans (agreesBut_setPc _ e)
  | call nnn =>
    obtain ⟨-, rfl⟩ := exec_call_eq_next.1 h
    exact (agreesBut_setStack s _).trans (agreesBut_setPc _ _)
  | jp | jpV0 | seImm | sneImm | seReg | sneReg | skp | sknp => cases h; exact agreesBut_setPc s _
  | ldImm x | addImm x | ldReg x | orReg x | andReg x | xorReg x | rnd x | ldFromDt x =>
    cases h; exact agreesBut_setReg s x _
  | addReg x | subReg x | shrReg x | subnReg x | shlReg x => cases h; exact agreesBut_setReg_setFlag s x _ _
  | ldI | ldFont => cases h; exact agreesBut_setI s _
  | addI => cases h; exact (agreesBut_setI s _).trans (agreesBut_setReg _ VF _)
  | ldDt => cases h; exact agreesBut_setDt s _
  | ldSt => cases h; exact agreesBut_setSt s _
  | ldKey x =>
    by_cases hkeys : s.keys = 0
    · cases (exec_ldKey_of_none x hkeys).symm.trans h
      exact (agreesBut_setPc s _).mono (by simp [writtenParts]) (by simp)
    · cases (exec_ldKey_of_held x hkeys).symm.trans h
      exact (agreesBut_setReg s x _).mono (by simp) (by simp [writtenRegs])
  | drw =>
    obtain ⟨rfl, -⟩ := State.guarded_eq_next.1 h
    exact (agreesBut_setFb s _).trans (agreesBut_setReg _ VF _)
  | ldBcd =>
    obtain ⟨rfl, -⟩ := State.guarded_eq_next.1 h
    exact agreesBut_setMemory s _
  | storeRegs =>
    obtain ⟨rfl, -⟩ := State.guarded_eq_next.1 h
    exact (agreesBut_setMemory s _).trans (agreesBut_setI _ _)
  | loadRegs x =>
    obtain ⟨rfl, -⟩ := State.guarded_eq_next.1 h
    exact ((agreesBut_setRegs_loadBlock x _ _).trans (agreesBut_setI _ _)).mono (by simp [writtenParts])
      (by simp [writtenRegs])

/-- Memory as a list changes only by the block store of FX33 or FX55, which ends inside memory (R65, R133, R134). -/
theorem exec_memory_cases (h : exec i s = .next t) :
    t.memory = s.memory ∨
      ∃ x bs, (i = .ldBcd x ∨ i = .storeRegs x) ∧ s.i.toNat + bs.length ≤ 4096 ∧
        t.memory = s.memory.storeBlock s.i.toNat bs := by
  cases i with
  | ldBcd x =>
    obtain ⟨rfl, hzero | hle⟩ := State.guarded_eq_next.1 h
    · cases hzero
    · exact .inr ⟨x, decimalDigits (s.reg x), .inl rfl, hle, rfl⟩
  | storeRegs x =>
    obtain ⟨rfl, hzero | hle⟩ := State.guarded_eq_next.1 h
    · cases hzero
    · exact .inr ⟨x, _, .inr rfl, by rw [regList_take_length]; exact hle, rfl⟩
  | ret => obtain ⟨_, _, -, rfl⟩ := exec_ret_eq_next.1 h; exact .inl rfl
  | call => obtain ⟨-, rfl⟩ := exec_call_eq_next.1 h; exact .inl rfl
  | drw | loadRegs => obtain ⟨rfl, -⟩ := State.guarded_eq_next.1 h; exact .inl rfl
  | ldKey => cases h; left; split <;> rfl
  | _ => cases h; exact .inl rfl

/-- The stack changes only by the pop of 00EE and the push of 2NNN (R91, R93). -/
theorem exec_stack_cases (h : exec i s = .next t) :
    t.stack = s.stack ∨ (i = .ret ∧ s.stack = t.pc :: t.stack) ∨
      ∃ nnn, i = .call nnn ∧ s.stack.length < 16 ∧ t.stack = s.pc :: s.stack := by
  cases i with
  | ret => obtain ⟨_, _, hstack, rfl⟩ := exec_ret_eq_next.1 h; exact .inr (.inl ⟨rfl, hstack⟩)
  | call nnn => obtain ⟨hroom, rfl⟩ := exec_call_eq_next.1 h; exact .inr (.inr ⟨nnn, rfl, hroom, rfl⟩)
  | _ => exact .inl ((exec_frame h).stack (by simp [writtenParts]))

/-- A STEP that completes has fetched, and is the effect of an instruction or none at all (R90, R99). -/
theorem stepInstr_next_cases {keys : KeySet} {rnd : Byte} (h : stepInstr keys rnd s = .next t) :
    s.pc.toNat ≤ 4094 ∧
      ((∃ i, decode (s.memory.readWord s.pc.toNat) = .instr i ∧
          exec i ((s.latch keys rnd).setPc (s.pc + 2)) = .next t) ∨
        t = (s.latch keys rnd).setPc (s.pc + 2)) := by
  obtain ⟨-, hfault⟩ | ⟨hle, ⟨i, hdecode, hexec⟩ | ⟨w, -, hskip⟩⟩ := stepInstr_cases (s := s) keys rnd
  · cases hfault.symm.trans h
  · exact ⟨hle, .inl ⟨i, hdecode, hexec.symm.trans h⟩⟩
  · cases hskip.symm.trans h
    exact ⟨hle, .inr rfl⟩

end Sys2Proof.Machine
end

section
/-! PROOFS. The invariant of the machine: canonical memory, a stack of at most 16 return addresses, and the bound on
`pc`, each kept by every instruction and then by every operation of the host. -/

namespace Sys2Proof.Machine

variable {s t : State} {i : Instr}

/-- Every instruction keeps memory canonical. -/
theorem exec_keeps_wf (h : exec i s = .next t) (hwf : s.memory.wf = true) : t.memory.wf = true := by
  obtain heq | ⟨_, _, -, hle, heq⟩ := exec_memory_cases h
  · exact heq ▸ hwf
  · exact heq ▸ Memory.wf_storeBlock hwf hle

/-- Every instruction keeps the stack within 16 entries: a call with no room faults (R93). -/
theorem exec_keeps_stack_length (h : exec i s = .next t) (hlen : s.stack.length ≤ 16) : t.stack.length ≤ 16 := by
  obtain heq | ⟨-, heq⟩ | ⟨_, -, hroom, heq⟩ := exec_stack_cases h
  · rwa [heq]
  · rw [heq, List.length_cons] at hlen; omega
  · rw [heq, List.length_cons]; omega

/-- Every instruction keeps the return addresses at most 4096: a call pushes the advanced `pc` (R91, R93). -/
theorem exec_keeps_stack_entries (h : exec i s = .next t) (hstack : ∀ e ∈ s.stack, e.toNat ≤ 4096)
    (hpc : s.pc.toNat ≤ 4096) : ∀ e ∈ t.stack, e.toNat ≤ 4096 := by
  obtain heq | ⟨-, heq⟩ | ⟨_, -, -, heq⟩ := exec_stack_cases h
  · rwa [heq]
  · exact fun e he => hstack e (heq ▸ List.mem_cons_of_mem _ he)
  · rw [heq]; exact List.forall_mem_cons.2 ⟨hpc, hstack⟩

/-- A skip moves an advanced `pc` by at most 2 (R100). -/
theorem skipIf_pc_le (hpc : s.pc.toNat ≤ 4096) (c : Bool) : (s.skipIf c).pc.toNat ≤ 4098 := by
  rw [State.skipIf_eq, State.setPc_pc]
  split <;> bv_omega

/-- Every instruction leaves `pc` at most 0x10FE, the farthest that BNNN jumps (R26, R98). -/
theorem exec_pc_le (h : exec i s = .next t) (hlow : 2 ≤ s.pc.toNat) (hpc : s.pc.toNat ≤ 4096)
    (hstack : ∀ e ∈ s.stack, e.toNat ≤ 4096) : t.pc.toNat ≤ 0x10FE := by
  cases i with
  | ret =>
    obtain ⟨e, _, heq, rfl⟩ := exec_ret_eq_next.1 h
    have := hstack e (heq ▸ List.mem_cons_self)
    simp only [State.setPc_pc]; omega
  | call nnn =>
    obtain ⟨-, rfl⟩ := exec_call_eq_next.1 h
    have := nnn.isLt
    simp only [State.setPc_pc, zext16_toNat]; omega
  | jp nnn =>
    cases h
    have := nnn.isLt
    simp only [State.setPc_pc, zext16_toNat]; omega
  | jpV0 nnn =>
    cases h
    have := nnn.isLt; have := (s.reg 0).isLt
    simp only [State.setPc_pc, zext16_add_byte16_toNat]; omega
  | seImm | sneImm | seReg | sneReg | skp | sknp => cases h; exact (skipIf_pc_le hpc _).trans (by decide)
  | ldKey x =>
    by_cases hkeys : s.keys = 0
    · cases (exec_ldKey_of_none x hkeys).symm.trans h
      simp only [State.setPc_pc]; bv_omega
    · cases (exec_ldKey_of_held x hkeys).symm.trans h
      simp only [State.setReg_pc]; omega
  | _ => rw [(exec_frame h).pc (by simp [writtenParts])]; omega

/-- The invariant is about memory, the stack and `pc` alone. -/
theorem Inv.congr (h : Inv s) (hmemory : t.memory = s.memory) (hstack : t.stack = s.stack) (hpc : t.pc = s.pc) :
    Inv t := by
  rwa [Inv, hmemory, hstack, hpc]

/-- A STEP that completes keeps the invariant (R90). -/
theorem stepInstr_keeps_inv {keys : KeySet} {rnd : Byte} (hinv : Inv s) (h : stepInstr keys rnd s = .next t) :
    Inv t := by
  obtain ⟨hwf, hlen, hentries, -⟩ := hinv
  obtain ⟨hle, hrun⟩ := stepInstr_next_cases h
  have hpc := toNat_add_two hle
  have hlow : 2 ≤ (s.pc + 2).toNat := by omega
  have hhigh : (s.pc + 2).toNat ≤ 4096 := by omega
  obtain ⟨i, -, hexec⟩ | rfl := hrun
  · exact ⟨exec_keeps_wf hexec hwf, exec_keeps_stack_length hexec hlen,
      exec_keeps_stack_entries hexec hentries hhigh, exec_pc_le hexec hlow hhigh hentries⟩
  · exact ⟨hwf, hlen, hentries, hhigh.trans (by decide)⟩

/-- Settles O48: the reset state lists no byte and no return address, and `pc` is 0x200. -/
theorem resetMeetsInvariant : Obligations.ResetMeetsInvariant :=
  ⟨Memory.wf_nil, Nat.zero_le 16, by simp [State.reset], by decide⟩

/-- Settles O49, operation by operation: a LOAD is a write of one of the 4096 bytes, and a RESET forgets the past. -/
theorem stepKeepsInvariant : Obligations.StepKeepsInvariant := by
  intro s t hinv h
  obtain ⟨-, hpc, -, hmemory, hstack, -⟩ := s.nextOp_machine
  have hinv' : Inv s.nextOp.2 := hinv.congr hmemory hstack hpc
  obtain ⟨keys, rnd, -, hstep⟩ | ⟨-, hstep⟩ | ⟨a, b, -, hstep⟩ | ⟨-, hstep⟩ := step_cases s
  · exact stepInstr_keeps_inv hinv' (hstep.symm.trans h)
  · cases hstep.symm.trans h
    exact hinv'.congr rfl rfl rfl
  · cases hstep.symm.trans h
    obtain ⟨hwf, hrest⟩ := hinv'
    exact ⟨Memory.wf_write hwf a.isLt b, hrest⟩
  · cases hstep.symm.trans h
    exact resetMeetsInvariant.congr rfl rfl rfl

end Sys2Proof.Machine
end

section
/-! PROOFS. The writers of each component of Machine State, read off the frame of every instruction. -/

namespace Sys2Proof.Machine

variable {i : Instr}

theorem writer_of_fb (h : .fb ∈ writtenParts i) : i = .cls ∨ ∃ x y n, i = .drw x y n := by
  cases i <;> simp [writtenParts] at h ⊢

theorem writer_of_dt (h : .dt ∈ writtenParts i) : ∃ x, i = .ldDt x := by
  cases i <;> simp [writtenParts] at h ⊢

theorem writer_of_st (h : .st ∈ writtenParts i) : ∃ x, i = .ldSt x := by
  cases i <;> simp [writtenParts] at h ⊢

theorem writer_of_i (h : .i ∈ writtenParts i) :
    (∃ nnn, i = .ldI nnn) ∨ ∃ x, i = .addI x ∨ i = .ldFont x ∨ i = .storeRegs x ∨ i = .loadRegs x := by
  cases i <;> simp [writtenParts] at h ⊢

theorem writer_of_pc (h : .pc ∈ writtenParts i) :
    i = .ret ∨ (∃ nnn, i = .jp nnn ∨ i = .call nnn ∨ i = .jpV0 nnn) ∨
      (∃ x nn, i = .seImm x nn ∨ i = .sneImm x nn) ∨ (∃ x y, i = .seReg x y ∨ i = .sneReg x y) ∨
      ∃ x, i = .skp x ∨ i = .sknp x ∨ i = .ldKey x := by
  cases i <;> simp [writtenParts] at h ⊢

/-- No instruction writes the host's side. -/
theorem host_notMem_writtenParts (i : Instr) : .host ∉ writtenParts i := by
  cases i <;> simp [writtenParts]

/-- Settles O45: what differs after an instruction lies in its frame, whose components each name their writers. -/
theorem componentsHaveOnlyTheirWriters : Obligations.ComponentsHaveOnlyTheirWriters := by
  intro i s t h
  have hframe := exec_frame h
  refine ⟨?memory, fun hne => writer_of_fb (not_imp_comm.1 hframe.fb hne), ?stack,
    fun hne => writer_of_dt (not_imp_comm.1 hframe.dt hne), fun hne => writer_of_st (not_imp_comm.1 hframe.st hne),
    fun hne => writer_of_i (not_imp_comm.1 hframe.i hne), fun hne => writer_of_pc (not_imp_comm.1 hframe.pc hne),
    ?reg, hframe.host (host_notMem_writtenParts i)⟩
  case memory =>
    intro hne
    obtain heq | ⟨x, _, hi, -⟩ := exec_memory_cases h
    · exact absurd heq hne
    · exact ⟨x, hi⟩
  case stack =>
    intro hne
    obtain heq | ⟨hi, -⟩ | ⟨nnn, hi, -⟩ := exec_stack_cases h
    · exact absurd heq hne
    · exact .inl hi
    · exact .inr ⟨nnn, hi⟩
  case reg =>
    intro k hne
    have hk : k ∈ writtenRegs i := not_imp_comm.1 (hframe.reg k) hne
    clear hne hframe h
    cases i <;> simp [writtenRegs, mem_regsUpTo, eq_comm (a := k)] at hk ⊢ <;> exact hk

/-- A flag write leaves 0 or 1 in VF (R22). -/
theorem setFlag_reg_VF_zero_or_one (s : State) (c : Bool) : (s.setFlag c).reg VF = 0 ∨ (s.setFlag c).reg VF = 1 := by
  rw [State.setFlag_eq, setReg_reg_self]
  exact flagByte_eq_zero_or_one c

/-- Settles O46: the seven end in the flag write, and VF as a register has the writers of O45. -/
theorem flagHasOnlyItsWriters : Obligations.FlagHasOnlyItsWriters := by
  intro i s t h
  constructor
  · rintro (⟨x, y, hi⟩ | ⟨x, rfl⟩ | ⟨x, y, n, rfl⟩)
    · obtain rfl | rfl | rfl | rfl | rfl := hi <;> cases h <;> exact setFlag_reg_VF_zero_or_one _ _
    · cases h
      exact setFlag_reg_VF_zero_or_one _ _
    · obtain ⟨rfl, -⟩ := State.guarded_eq_next.1 h
      exact setFlag_reg_VF_zero_or_one _ _
  · intro hne
    obtain ⟨-, -, -, -, -, -, -, hreg, -⟩ := componentsHaveOnlyTheirWriters i s t h
    obtain hdest | hdest | ⟨y, hflag⟩ | hdest | hdest | ⟨x, hload, hle⟩ | ⟨-, hflag⟩ := hreg VF hne
    · exact .inr (.inr (.inr (.inl hdest)))
    · exact .inr (.inr (.inr (.inr (.inl hdest))))
    · exact .inl ⟨VF, y, hflag⟩
    · exact .inr (.inr (.inr (.inr (.inr (.inl hdest)))))
    · exact .inr (.inr (.inr (.inr (.inr (.inr (.inl hdest))))))
    · have hx : x = VF := BitVec.eq_of_toNat_eq (Nat.le_antisymm (Nat.le_of_lt_succ x.isLt) hle)
      exact .inr (.inr (.inr (.inr (.inr (.inr (.inr (hx ▸ hload)))))))
    · exact hflag.imp_right (Or.imp_right .inl)

end Sys2Proof.Machine
end

section
/-! PROOFS. The inputs of a STEP: an instruction that reads neither does the same whatever they are. -/

namespace Sys2Proof.Machine

variable (s : State) (keys : KeySet) (rnd : Byte)

/-- The same answer with other inputs latched in its next state. -/
def latchResult : Result → Result
  | .next t => .next (t.latch keys rnd)
  | .fault f => .fault f
  | .refused q => .refused q

/-- A guarded access looks at `i` alone, so it answers alike when what it completes with differs in the inputs. -/
theorem guarded_latch {n : Nat} {t t' : State} (h : t' = t.latch keys rnd) :
    (s.latch keys rnd).guarded n t' = latchResult keys rnd (s.guarded n t) := by
  rw [h, State.guarded, State.guarded, apply_ite (latchResult keys rnd)]
  rfl

/-- An instruction with other inputs latched answers the same but for the inputs, unless it reads the one that
changed (R90). -/
theorem exec_latch {i : Instr} (hkeys : (∃ x, i = .skp x ∨ i = .sknp x ∨ i = .ldKey x) → keys = s.keys)
    (hrnd : (∃ x nn, i = .rnd x nn) → rnd = s.rnd) :
    exec i (s.latch keys rnd) = latchResult keys rnd (exec i s) := by
  cases i with
  | skp x | sknp x => rw [hkeys ⟨x, by simp⟩]; rfl
  | ldKey x =>
    cases hkeys ⟨x, by simp⟩
    by_cases h : s.keys = 0
    · rw [exec_ldKey_of_none (s := s.latch s.keys rnd) x h, exec_ldKey_of_none x h]; rfl
    · rw [exec_ldKey_of_held (s := s.latch s.keys rnd) x h, exec_ldKey_of_held x h]; rfl
  | rnd x nn => rw [hrnd ⟨x, nn, rfl⟩]; rfl
  | drw | ldBcd | storeRegs | loadRegs => exact guarded_latch s keys rnd rfl
  | ret =>
    cases h : s.stack with
    | nil => rw [exec_ret_nil (s.latch keys rnd) h, exec_ret_nil s h]; rfl
    | cons e rest => rw [exec_ret_cons (s.latch keys rnd) h, exec_ret_cons s h]; rfl
  | call nnn =>
    by_cases h : s.stack.length < 16
    · rw [exec_call_of_lt (s := s.latch keys rnd) nnn h, exec_call_of_lt nnn h]; rfl
    · have h := Nat.not_lt.1 h
      rw [exec_call_of_ge (s := s.latch keys rnd) nnn h, exec_call_of_ge nnn h]; rfl
  | _ => rfl

/-- Settles O47: with one input kept, the answer differs in the other alone. -/
theorem inputsHaveOnlyTheirReaders : Obligations.InputsHaveOnlyTheirReaders := by
  intro i s keys rnd
  constructor <;> intro hi
  · have hlatch : exec i (s.latch keys s.rnd) = latchResult keys s.rnd (exec i s) :=
      exec_latch s keys s.rnd (fun ⟨x, hx⟩ => by simp [hi x] at hx) fun _ => rfl
    exact ⟨fun t ht => hlatch.trans (congrArg _ ht), fun f hf => hlatch.trans (congrArg _ hf)⟩
  · have hlatch : exec i (s.latch s.keys rnd) = latchResult s.keys rnd (exec i s) :=
      exec_latch s s.keys rnd (fun _ => rfl) fun ⟨x, nn, hx⟩ => absurd hx (hi x nn)
    exact ⟨fun t ht => hlatch.trans (congrArg _ ht), fun f hf => hlatch.trans (congrArg _ hf)⟩

end Sys2Proof.Machine
end

section
/-! PROOFS. The random byte and the wraparound law of 41_alu.md. -/

namespace Sys2Proof.Machine

/-- Settles O12: one write of v[X], with a value given bit by bit. -/
theorem randomByteIsMasked : Obligations.RandomByteIsMasked := fun x nn =>
  ⟨decode_encode (.rnd x nn), fun s =>
    ⟨_, rfl, agreesBut_setReg s x _, fun k _ => by rw [setReg_reg_self, BitVec.getLsbD_and]⟩⟩

/-- Settles O13: three writes of one register, each of the two sums reduced modulo 256. -/
theorem loadThenAddTwiceWraps : Obligations.LoadThenAddTwiceWraps := fun x nn s =>
  ⟨_, _, _, rfl, rfl, rfl, by simp only [setReg_reg_self, BitVec.toNat_add]; omega,
    (((agreesBut_setReg s x _).trans (agreesBut_setReg _ x _)).trans (agreesBut_setReg _ x _)).mono
      (by simp) (by simp)⟩

end Sys2Proof.Machine
end

section
/-! PROOFS. Call and return of 40_control_flow.md. -/

namespace Sys2Proof.Machine

/-- Settles O15, by whether the stack has room. -/
theorem callPushesReturnAddress : Obligations.CallPushesReturnAddress := fun nnn =>
  ⟨decode_encode (.call nnn), fun s =>
    ⟨fun hroom => ⟨_, exec_call_of_lt nnn hroom, rfl, zext16_toNat nnn,
        ((agreesBut_setStack s _).trans (agreesBut_setPc _ _)).mono (by simp) (by simp)⟩,
      fun hfull => exec_call_of_ge nnn hfull.ge⟩⟩

/-- Settles O17: the entry a return pops is the one the call pushed. -/
theorem returnUndoesCall : Obligations.ReturnUndoesCall := by
  intro nnn s t u hcall hstack
  obtain ⟨-, rfl⟩ := exec_call_eq_next.1 hcall
  exact ⟨_, exec_ret_cons u hstack, rfl, rfl⟩

end Sys2Proof.Machine
end

section
/-! PROOFS. Blocks of registers stored and then read: what a store that completes leaves, and the statements of
20_memory.md and 42_index_memory.md about it. -/

namespace Sys2Proof.Machine

variable {s t : State} {x : Reg}

/-- What FX55 leaves where it completes: a block inside memory, v[0] to v[X] in it, and `i` past it (R134). -/
theorem exec_storeRegs_spec (hwf : s.memory.wf = true) (h : exec (.storeRegs x) s = .next t) :
    s.effAddr x.toNat ≤ 4095 ∧ (∀ k : Reg, k.toNat ≤ x.toNat → t.memory.read (s.effAddr k.toNat) = s.reg k) ∧
      t.i.toNat = s.i.toNat + x.toNat + 1 := by
  obtain ⟨-, hspec⟩ := registerBlockStored x
  obtain ⟨hdone, hfault⟩ := hspec s
  have hle : s.effAddr x.toNat ≤ 4095 := by
    by_contra hgt
    cases (hfault (Nat.lt_of_not_le hgt)).symm.trans h
  obtain ⟨t', hexec, hblock, -, hi, -⟩ := hdone hwf hle
  cases hexec.symm.trans h
  exact ⟨hle, hblock, hi⟩

/-- Settles O24: the load reads the addresses the store wrote, and moves `i` past the same block. -/
theorem storeThenLoadRestoresRegisters : Obligations.StoreThenLoadRestoresRegisters := by
  intro x s t u hwf hstore hkept hui
  obtain ⟨hle, hblock, hti⟩ := exec_storeRegs_spec hwf hstore
  have heff (k : Nat) : u.effAddr k = s.effAddr k := by rw [State.effAddr, State.effAddr, hui]
  obtain ⟨-, hspec⟩ := registerBlockLoaded x
  obtain ⟨hdone, -⟩ := hspec u
  obtain ⟨w, hload, hregs, hwi, -⟩ := hdone (heff _ ▸ hle)
  refine ⟨w, hload, fun k hk => ?_, BitVec.eq_of_toNat_eq (by rw [hwi, hti, hui])⟩
  have hlow : s.effAddr 0 ≤ s.effAddr k.toNat := Nat.add_le_add_left (Nat.zero_le _) _
  have hhigh : s.effAddr k.toNat ≤ s.effAddr x.toNat := Nat.add_le_add_left hk _
  rw [hregs k hk, heff, hkept _ hlow hhigh, hblock k hk]

/-- Settles O25: the first two bytes of the block are v[0] and v[1], and they lie in memory. -/
theorem storeIsSeenByNextFetch : Obligations.StoreIsSeenByNextFetch := by
  intro x s t hwf hx hstore hpc
  obtain ⟨hle, hblock, -⟩ := exec_storeRegs_spec hwf hstore
  have hone : 1 ≤ x.toNat := BitVec.toNat_pos_of_ne_zero hx
  have hfirst := hblock 0 (Nat.zero_le _)
  have hsecond := hblock 1 hone
  rw [State.effAddr] at hle
  refine State.fetch_eq_some.2 ⟨by rw [hpc]; omega, ?_⟩
  rw [hpc, Memory.readWord, ← hfirst, ← hsecond]
  rfl

end Sys2Proof.Machine
end

section
/-! PROOFS. Draws that complete: the statements of 43_display.md about drawing twice and about the rectangle. -/

namespace Sys2Proof.Machine

variable {s t u : State} {x y : Reg} {n : Nibble}

/-- A draw completes exactly with no rows or with rows that lie in memory, and leaves the drawn canvas (R65, R151). -/
theorem exec_drw_eq_next :
    exec (.drw x y n) s = .next t ↔
      (n = 0 ∨ s.effAddr (n.toNat - 1) ≤ 4095) ∧ t = (s.setFb (s.drawn x y n).fb).setFlag (s.drawn x y n).hit := by
  constructor
  · intro h
    have hin : n = 0 ∨ s.effAddr (n.toNat - 1) ≤ 4095 := by
      by_contra hout
      obtain ⟨hn, hgt⟩ := not_or.1 hout
      cases (exec_drw_of_gt x y hn (Nat.lt_of_not_le hgt)).symm.trans h
    cases (exec_drw_of_le x y hin).symm.trans h
    exact ⟨hin, rfl⟩
  · rintro ⟨hin, rfl⟩
    exact exec_drw_of_le x y hin

/-- The pixels a DXYN turns over depend on `i`, the bytes of memory, v[X] and v[Y] alone (R151). -/
theorem turnsOver_congr (hi : u.i = s.i) (hmemory : ∀ a, u.memory.read a = s.memory.read a) (hx : u.reg x = s.reg x)
    (hy : u.reg y = s.reg y) (px py : Nat) : u.turnsOver x y n px py = s.turnsOver x y n px py := by
  simp only [State.turnsOver, State.effAddr, hi, hmemory, hx, hy]

/-- Settles O28: the second exclusive OR undoes the first, and what it turns off is what the first lit. -/
theorem drawingTwiceRestoresDisplay : Obligations.DrawingTwiceRestoresDisplay := by
  intro x y n s t u hdraw hfb hi hmemory hx hy
  obtain ⟨hin, rfl⟩ := exec_drw_eq_next.1 hdraw
  have hin' : n = 0 ∨ u.effAddr (n.toNat - 1) ≤ 4095 := by rwa [State.effAddr, hi]
  have hu (px py : Nat) : u.fb.pixel px py = (s.fb.pixel px py != s.turnsOver x y n px py) := by
    rw [hfb]; exact drawn_pixel s x y n px py
  have hsame := turnsOver_congr (n := n) hi hmemory hx hy
  refine ⟨_, exec_drw_of_le x y hin', Framebuffer.ext_pixel fun px py _ _ => ?pixel, ?flag⟩
  case pixel =>
    refine (drawn_pixel u x y n px py).trans ?_
    rw [hu, hsame, Bool.bne_assoc, bne_self_eq_false, Bool.bne_false]
  case flag =>
    rw [State.setFlag_eq, setReg_reg_self, flagByte_eq_one_iff, drawn_hit_iff]
    refine exists₂_congr fun px py => ?_
    rw [hu, hsame]
    cases s.turnsOver x y n px py <;> simp

/-- Settles O29: a pixel that changes is one the sprite turns over, which lies in the rectangle. -/
theorem drawStaysInItsRectangle : Obligations.DrawStaysInItsRectangle := by
  intro x y n s t px py hdraw hne
  obtain ⟨-, rfl⟩ := exec_drw_eq_next.1 hdraw
  have hturns : s.turnsOver x y n px py = true := by
    by_contra hno
    refine hne ((drawn_pixel s x y n px py).trans ?_)
    rw [Bool.eq_false_of_not_eq_true hno, Bool.bne_false]
  simp only [State.turnsOver, Bool.and_eq_true, decide_eq_true_eq] at hturns
  obtain ⟨⟨hleft, hright, hcolumn, htop, hbottom⟩, -⟩ := hturns
  have hrows := n.isLt
  exact ⟨hleft, hright, hcolumn, htop, hbottom, by omega⟩

end Sys2Proof.Machine
end

section
/-! PROOFS. The keys: KEYSEL as the lowest held key, and the statements of 44_keys_timers.md about the key
instructions. -/

namespace Sys2Proof.Machine

variable {s : State}

/-- The key test as a proposition: the whole byte is the key code (R161). -/
theorem keyHeld_iff (keys : KeySet) (code : Byte) :
    keyHeld keys code = true ↔ code.toNat ≤ 15 ∧ keys.getLsbD code.toNat = true := by
  rw [keyHeld, Bool.and_eq_true, decide_eq_true_eq]

/-- A key set that is not empty holds a key. -/
theorem exists_held {keys : KeySet} (h : keys ≠ 0) : ∃ k < 16, keys.getLsbD k = true := by
  by_contra hno
  refine h (BitVec.eq_of_getLsbD_eq fun k hk => ?_)
  rw [Bool.eq_false_of_not_eq_true fun hheld => hno ⟨k, hk, hheld⟩]
  simp

/-- KEYSEL delivers the lowest held code (R163, log 6). -/
theorem keysel_spec {keys : KeySet} (h : keys ≠ 0) :
    (keysel keys).toNat ≤ 15 ∧ keys.getLsbD (keysel keys).toNat = true ∧
      ∀ k < (keysel keys).toNat, keys.getLsbD k = false := by
  obtain ⟨k, hk, hheld⟩ := exists_held h
  cases hfind : (List.range 16).find? fun k => keys.getLsbD k with
  | none => exact absurd hheld (List.find?_eq_none.1 hfind k (List.mem_range.2 hk))
  | some j =>
    obtain ⟨hj, hmem, hlow⟩ := List.find?_range_eq_some.1 hfind
    have hlt := List.mem_range.1 hmem
    have hsel : (keysel keys).toNat = j := by
      rw [keysel, hfind, Option.getD_some, BitVec.toNat_ofNat]
      omega
    rw [hsel]
    exact ⟨by omega, hj, fun k hk => by simpa using hlow k hk⟩

/-- Settles O30: a skip on the key test, and one on its negation. -/
theorem keySkips : Obligations.KeySkips := by
  refine fun x => ⟨decode_encode (.skp x), decode_encode (.sknp x), fun s =>
    ⟨⟨_, rfl, agreesBut_setPc s _, ?_⟩, ⟨_, rfl, agreesBut_setPc s _, ?_⟩⟩⟩
  · simp only [State.skipIf_eq, State.setPc_pc, keyHeld_iff]
  · simp only [State.skipIf_eq, State.setPc_pc, Bool.not_eq_true', ← Bool.not_eq_true, keyHeld_iff, ite_not]

/-- Settles O31, by whether a key is held. -/
theorem keyWaitTakesLowestKeyOrRewinds : Obligations.KeyWaitTakesLowestKeyOrRewinds := by
  refine fun x => ⟨decode_encode (.ldKey x), fun s => ⟨fun hheld => ?_, fun hnone => ?_⟩⟩
  · refine ⟨_, exec_ldKey_of_held x hheld, agreesBut_setReg s x _, ?_⟩
    rw [setReg_reg_self]
    exact keysel_spec hheld
  · exact ⟨_, exec_ldKey_of_none x hnone, agreesBut_setPc s _, rfl⟩

end Sys2Proof.Machine
end

section
/-! PROOFS. Faults: which instructions raise one and when, and that a fault depends on no input of the STEP. -/

namespace Sys2Proof.Machine

variable {s t u : State} {i : Instr} {f : Fault}

/-- A return faults exactly on an empty stack (R91). -/
theorem exec_ret_eq_fault : exec .ret s = .fault f ↔ s.stack = [] ∧ f = .stackUnderflow := by
  cases h : s.stack with
  | nil => simp [exec_ret_nil s h, eq_comm (b := f)]
  | cons e rest => simp [exec_ret_cons s h]

/-- A call faults exactly on a full stack (R93). -/
theorem exec_call_eq_fault {nnn : Addr} :
    exec (.call nnn) s = .fault f ↔ 16 ≤ s.stack.length ∧ f = .stackOverflow := by
  by_cases h : s.stack.length < 16
  · simp [exec_call_of_lt nnn h, Nat.not_le.2 h]
  · simp [exec_call_of_ge nnn (Nat.not_lt.1 h), Nat.not_lt.1 h, eq_comm (b := f)]

/-- A guarded access of `n` bytes faults exactly when its last address, `i + n - 1`, is beyond 4095 (R65, R183). -/
theorem guarded_eq_fault_iff {n : Nat} :
    s.guarded n t = .fault f ↔
      n ≠ 0 ∧ s.i.toNat + n - 1 > 4095 ∧ f = .memOutOfBounds (s.i.toNat + n - 1) := by
  rw [State.guarded_eq_fault]
  refine and_congr_right fun hn => ?_
  rw [Nat.add_sub_assoc (Nat.pos_of_ne_zero hn)]
  exact and_congr_left' (by omega)

/-- A guarded access is not refused. -/
theorem guarded_ne_refused (n : Nat) (q : Refusal) : s.guarded n t ≠ .refused q := by
  by_cases h : n ≠ 0 ∧ s.effAddr (n - 1) > 4095 <;> simp [State.guarded, raiseFault, h]

/-- No instruction is refused: each has a meaning. -/
theorem exec_ne_refused (i : Instr) (s : State) (q : Refusal) : exec i s ≠ .refused q := by
  cases i with
  | ret =>
    cases h : s.stack with
    | nil => simp [exec_ret_nil s h]
    | cons e rest => simp [exec_ret_cons s h]
  | call nnn =>
    by_cases h : s.stack.length < 16
    · simp [exec_call_of_lt nnn h]
    · simp [exec_call_of_ge nnn (Nat.not_lt.1 h)]
  | drw | ldBcd | storeRegs | loadRegs => exact guarded_ne_refused _ q
  | _ => intro h; cases h

/-- Settles O41: the guarded accesses, the pop and the push fault as their rules say, and the other 28 complete. -/
theorem instructionFaultsExactlyWhen : Obligations.InstructionFaultsExactlyWhen := by
  refine fun i s => ⟨fun f => ?_, exec_ne_refused i s⟩
  cases i with
  | ret => simp [exec_ret_eq_fault]
  | call nnn => simp [exec_call_eq_fault]
  | drw x y n =>
    have hrows : n.toNat = 0 ↔ n = 0 := BitVec.toNat_inj (y := 0)
    exact guarded_eq_fault_iff.trans (by simp [hrows])
  | ldBcd x => exact guarded_eq_fault_iff.trans (by simp)
  | storeRegs x | loadRegs x => exact guarded_eq_fault_iff.trans (by simp [blockLen])
  | _ => exact ⟨fun h => (by cases h), by simp⟩

/-- No instruction raises the fault of the fetch. -/
theorem exec_ne_fetchOutOfBounds (i : Instr) (s : State) (p : Nat) : exec i s ≠ .fault (.fetchOutOfBounds p) := by
  intro h
  obtain ⟨hfault, -⟩ := instructionFaultsExactlyWhen i s
  simpa using (hfault _).1 h

/-- Whether an instruction faults depends on `i` and the stack alone. -/
theorem exec_fault_congr (hi : u.i = s.i) (hstack : u.stack = s.stack) (h : exec i s = .fault f) :
    exec i u = .fault f := by
  obtain ⟨hfault, -⟩ := instructionFaultsExactlyWhen i s
  obtain ⟨hfault', -⟩ := instructionFaultsExactlyWhen i u
  rw [hfault', hi, hstack]
  exact (hfault f).1 h

/-- A STEP faults at fetch, or in the instruction it fetched (R90, R180). -/
theorem stepInstr_fault_cases {keys : KeySet} {rnd : Byte} (h : stepInstr keys rnd s = .fault f) :
    (4094 < s.pc.toNat ∧ f = .fetchOutOfBounds s.pc.toNat) ∨
      (s.pc.toNat ≤ 4094 ∧ ∃ i, decode (s.memory.readWord s.pc.toNat) = .instr i ∧
        exec i ((s.latch keys rnd).setPc (s.pc + 2)) = .fault f) := by
  obtain ⟨hgt, hfault⟩ | ⟨hle, ⟨i, hdecode, hexec⟩ | ⟨w, -, hskip⟩⟩ := stepInstr_cases (s := s) keys rnd
  · cases hfault.symm.trans h
    exact .inl ⟨hgt, rfl⟩
  · exact .inr ⟨hle, i, hdecode, hexec.symm.trans h⟩
  · cases hskip.symm.trans h

/-- A STEP whose word decodes to an instruction is that instruction on the advanced state (R90). -/
theorem stepInstr_eq_exec (keys : KeySet) (rnd : Byte) (hle : s.pc.toNat ≤ 4094)
    (hdecode : decode (s.memory.readWord s.pc.toNat) = .instr i) :
    stepInstr keys rnd s = exec i ((s.latch keys rnd).setPc (s.pc + 2)) := by
  rw [stepInstr_of_pc_le s keys rnd hle, hdecode]
  rfl

/-- Memories that read the same at every address hold the same words (R53). -/
theorem readWord_congr {m m' : Memory} (h : ∀ a, m'.read a = m.read a) (a : Nat) : m'.readWord a = m.readWord a := by
  rw [Memory.readWord, Memory.readWord, h, h]

/-- A STEP that faults does so from every state with the same Machine State, whatever its inputs (R183). -/
theorem stepInstr_fault_congr {keys keys' : KeySet} {rnd rnd' : Byte} (hsame : SameMachine s u)
    (h : stepInstr keys rnd s = .fault f) : stepInstr keys' rnd' u = .fault f := by
  have hpc : u.pc = s.pc := hsame.pc (by simp)
  have hi : u.i = s.i := hsame.i (by simp)
  have hstack : u.stack = s.stack := hsame.stack (by simp)
  have hword := readWord_congr (hsame.memory (by simp)) u.pc.toNat
  obtain ⟨hgt, rfl⟩ | ⟨hle, i, hdecode, hexec⟩ := stepInstr_fault_cases h
  · rw [stepInstr_of_pc_gt u keys' rnd' (hpc ▸ hgt), hpc]
  · rw [stepInstr_eq_exec keys' rnd' (hpc ▸ hle) (by rw [hword, hpc, hdecode])]
    exact exec_fault_congr (s := (s.latch keys rnd).setPc (s.pc + 2)) hi hstack hexec

/-- Settles O40: a fetch beyond 4094 is that fault, and no instruction is. -/
theorem fetchFaultsExactlyBeyond4094 : Obligations.FetchFaultsExactlyBeyond4094 := by
  intro s keys rnd p hstep
  obtain ⟨-, hpc, -⟩ := s.nextOp_machine
  rw [step_of_nextIsStep s hstep, ← hpc]
  constructor
  · intro h
    obtain ⟨hgt, hf⟩ | ⟨-, i, -, hexec⟩ := stepInstr_fault_cases h
    · exact ⟨hgt, Fault.fetchOutOfBounds.inj hf⟩
    · exact absurd hexec (exec_ne_fetchOutOfBounds _ _ p)
  · rintro ⟨hgt, rfl⟩
    exact stepInstr_of_pc_gt s.nextOp.2 keys rnd hgt

/-- Settles O42: only a STEP faults, and the next STEP starts from the same Machine State. -/
theorem faultRepeats : Obligations.FaultRepeats := by
  intro s f h
  obtain ⟨keys, rnd, hnext, hstep⟩ | ⟨-, hstep⟩ | ⟨a, b, -, hstep⟩ | ⟨-, hstep⟩ := step_cases s
  · refine ⟨⟨keys, rnd, hnext⟩, sameMachine_nextOp s, fun keys' rnd' hnext' => ?_⟩
    rw [step_of_nextIsStep _ hnext']
    exact stepInstr_fault_congr (sameMachine_nextOp s.afterFault) (hstep.symm.trans h)
  all_goals cases hstep.symm.trans h

end Sys2Proof.Machine
end

section
/-! PROOFS. The effect of the word at `pc`: the statements about one step and about steps that leave Machine State as it
was. -/

namespace Sys2Proof.Machine

variable {s t : State} {i : Instr} {keys : KeySet} {rnd : Byte}

/-- The state in which a STEP applies the effect of its word: the operation taken from the schedule, the inputs latched
and `pc` advanced (R90). -/
def State.entered (s : State) (keys : KeySet) (rnd : Byte) : State := (s.nextOp.2.latch keys rnd).setPc (s.pc + 2)

/-- A step whose operation is a STEP is the instruction at `pc`, on the state entered (R90). -/
theorem step_eq_exec (hnext : NextIsStep s keys rnd) (hle : s.pc.toNat ≤ 4094)
    (hdecode : decode (s.memory.readWord s.pc.toNat) = .instr i) : step s = exec i (s.entered keys rnd) := by
  obtain ⟨-, hpc, -, hmemory, -⟩ := s.nextOp_machine
  rw [step_of_nextIsStep s hnext, stepInstr_eq_exec keys rnd (hpc ▸ hle) (by rw [hmemory, hpc, hdecode]), hpc]
  rfl

/-- What is entered differs in `pc` and the host's side alone. -/
theorem agreesBut_entered (s : State) (keys : KeySet) (rnd : Byte) :
    AgreesBut [.pc, .host] [] s (s.entered keys rnd) :=
  (((sameMachine_nextOp s).trans (agreesBut_latch _ keys rnd)).trans (agreesBut_setPc _ _)).mono (by simp) (by simp)

/-- A state agrees with itself. -/
theorem AgreesBut.refl (s : State) {parts : List Part} {regs : List Reg} : AgreesBut parts regs s s := by
  constructor <;> simp

/-- A change of `pc` and the host's side that leaves `pc` where it was changes the host's side alone. -/
theorem sameMachine_of_pc_eq (h : AgreesBut [.pc, .host] [] s t) (hpc : t.pc = s.pc) : SameMachine s t where
  reg := h.reg
  pc _ := hpc
  i _ := h.i (by simp)
  memory _ := h.memory (by simp)
  stack _ := h.stack (by simp)
  dt _ := h.dt (by simp)
  st _ := h.st (by simp)
  fb _ := h.fb (by simp)
  host hhost := absurd (by simp) hhost

/-- A write of the old `pc` after the entry leaves Machine State as it was. -/
theorem sameMachine_entered_setPc {a : Word} (h : a = s.pc) : SameMachine s ((s.entered keys rnd).setPc a) :=
  sameMachine_of_pc_eq (((agreesBut_entered s keys rnd).trans (agreesBut_setPc _ a)).mono (by simp) (by simp)) h

/-- Settles O38: the operation is the first of the schedule, or the STEP with free inputs. -/
theorem stepRunsDecodedInstruction : Obligations.StepRunsDecodedInstruction := by
  intro s i hle hdecode
  refine ⟨fun keys rnd rest hschedule => ?_, fun hschedule => ?_⟩
  · rw [step_eq_exec (keys := keys) (rnd := rnd) (by rw [NextIsStep, State.nextOp, hschedule]) hle hdecode,
      State.entered, State.nextOp, hschedule]
    rfl
  · rw [step_eq_exec (keys := Config.freeKeys s.fresh) (rnd := Config.freeRnd s.fresh)
      (by rw [NextIsStep, State.nextOp, hschedule]) hle hdecode, State.entered, State.nextOp, hschedule]
    rfl

/-- Settles O32: FX0A takes back the advance. -/
theorem waitingStepChangesNothing : Obligations.WaitingStepChangesNothing := by
  intro x rnd s hnext hle hword
  have hdecode : decode (s.memory.readWord s.pc.toNat) = .instr (.ldKey x) := hword ▸ decode_encode (.ldKey x)
  rw [step_eq_exec hnext hle hdecode, exec_ldKey_of_none x rfl]
  exact ⟨_, rfl, sameMachine_entered_setPc (BitVec.add_sub_cancel s.pc 2)⟩

/-- The word of a jump to `pc` is the jump's encoding (R92, R216). -/
theorem selfJump_word {pc : Word} (h : pc.toNat ≤ 4094) : 0x1000#16 ||| pc = encode (.jp (pc.setWidth 12)) := by
  have e : (0x1#4 ++ pc.setWidth 12 : BitVec (4 + 12)).toNat = 0x1 <<< 12 ||| pc.toNat % 4096 := by
    rw [BitVec.toNat_append, BitVec.toNat_setWidth]
    rfl
  refine BitVec.eq_of_toNat_eq (Eq.trans ?_ e.symm)
  rw [BitVec.toNat_or, Nat.mod_eq_of_lt (by omega)]
  rfl

/-- The target of a jump to `pc` is `pc` (R92). -/
theorem zext16_setWidth {pc : Word} (h : pc.toNat ≤ 4094) : zext16 (pc.setWidth 12) = pc := by
  apply BitVec.eq_of_toNat_eq
  rw [zext16_toNat, BitVec.toNat_setWidth, Nat.mod_eq_of_lt (by omega)]

/-- Where the schedule does not start with another operation, the host's next operation is a STEP (log 1). -/
theorem exists_nextIsStep (h : ∀ op ∈ s.schedule.head?, op.isStep = true) : ∃ keys rnd, NextIsStep s keys rnd := by
  cases hschedule : s.schedule with
  | nil => exact ⟨_, _, by rw [NextIsStep, State.nextOp, hschedule]⟩
  | cons op rest =>
    have hop : op.isStep = true := h op (by simp [hschedule])
    cases op with
    | step keys rnd => exact ⟨keys, rnd, by rw [NextIsStep, State.nextOp, hschedule]⟩
    | tick | load | reset => cases hop

/-- Taking an operation leaves the tail of the schedule. -/
theorem nextOp_schedule (s : State) : s.nextOp.2.schedule = s.schedule.tail := by
  cases h : s.schedule <;> simp [State.nextOp, h]

/-- A STEP over a jump to itself leaves Machine State as it was (R216). -/
theorem step_selfJump (hself : SelfJump s) (hnext : NextIsStep s keys rnd) :
    ∃ t, step s = .next t ∧ SameMachine s t ∧ t.schedule = s.schedule.tail := by
  obtain ⟨hle, hword⟩ := hself
  have hdecode : decode (s.memory.readWord s.pc.toNat) = .instr (.jp (s.pc.setWidth 12)) := by
    rw [hword, selfJump_word hle, decode_encode]
  exact ⟨_, step_eq_exec hnext hle hdecode, sameMachine_entered_setPc (zext16_setWidth hle), nextOp_schedule s⟩

/-- The jump to itself is seen in Machine State alone. -/
theorem SelfJump.congr (hself : SelfJump s) (hsame : SameMachine s t) : SelfJump t := by
  rw [SelfJump, readWord_congr (hsame.memory (by simp)), hsame.pc (by simp)]
  exact hself

/-- A run goes on from the state its first step answers. -/
theorem run_succ_of_step (n : Nat) (h : step s = .next t) : core.run (n + 1) s = core.run n t := by
  have hcore : core.step s = .next t := h
  simp only [Host.Core.run, hcore]

/-- Settles O43, by induction on the number of steps. -/
theorem selfJumpIsAFixedPoint : Obligations.SelfJumpIsAFixedPoint := by
  intro n
  induction n with
  | zero => exact fun s _ _ => ⟨s, rfl, AgreesBut.refl s⟩
  | succ n ih =>
    intro s hself hsteps
    obtain ⟨keys, rnd, hnext⟩ := exists_nextIsStep fun op hop => hsteps op (List.mem_of_mem_head? hop)
    obtain ⟨t, hstep, hsame, hschedule⟩ := step_selfJump hself hnext
    obtain ⟨u, hrun, hsame'⟩ := ih t (hself.congr hsame) fun op hop =>
      hsteps op (List.mem_of_mem_tail (hschedule ▸ hop))
    exact ⟨u, (run_succ_of_step n hstep).trans hrun, (hsame.trans hsame').mono (by simp) (by simp)⟩

end Sys2Proof.Machine
end

section
/-! PROOFS. A word placed at the fetch address is the word the next step fetches. -/

namespace Sys2Proof

/-- A word is its two bytes (R70). -/
theorem highByte_append_lowByte (w : Word) : (highByte w ++ lowByte w : Word) = w := by
  have e : (highByte w ++ lowByte w : BitVec (8 + 8)).toNat = (w.toNat / 2 ^ 8) <<< 8 ||| w.toNat % 2 ^ 8 := by
    have := w.isLt
    rw [BitVec.toNat_append, highByte, lowByte, BitVec.extractLsb'_toNat, BitVec.extractLsb'_toNat,
      Nat.shiftRight_eq_div_pow, Nat.shiftRight_zero, Nat.mod_eq_of_lt (a := w.toNat / 2 ^ 8) (by omega)]
  refine BitVec.eq_of_toNat_eq (e.trans ?_)
  rw [← Nat.shiftLeft_add_eq_or_of_lt (Nat.mod_lt _ (by decide)), Nat.shiftLeft_eq]
  omega

/-- The decoder on a table row's number is the decoder on its word. -/
theorem decode_of_decodeTableWord {nbits w : Nat} {i : Instr} (h : decodeTableWord nbits w = some i) :
    decode (tableWord nbits w) = .instr i := by
  rw [decodeTableWord, decodeBytes, highByte_append_lowByte] at h
  cases hd : decode (tableWord nbits w) <;> simp_all [Decoded.toInstr]

end Sys2Proof

namespace Sys2Proof.Machine

variable (s : State) (w : Word)

/-- A placed word can be fetched. -/
theorem placeAddr_le : s.placeAddr ≤ 4094 := by
  unfold State.placeAddr progBase
  split <;> omega

/-- `pc` of the state with a placed word, as a number. -/
theorem placeWord_pc_toNat : (s.placeWord w).pc.toNat = s.placeAddr := by
  have := placeAddr_le s
  simp only [State.placeWord, BitVec.toNat_ofNat]
  omega

theorem placeWord_memory : (s.placeWord w).memory = s.memory.writeWord s.placeAddr w := rfl

/-- Placing a word writes memory, `pc` and the host's side. -/
theorem agreesBut_placeWord : AgreesBut [.memory, .pc, .host] [] s (s.placeWord w) := by
  constructor <;> simp [State.placeWord, State.reg]

/-- After the placing the host's next operation is a STEP (log 8). -/
theorem placeWord_nextIsStep : ∃ keys rnd, NextIsStep (s.placeWord w) keys rnd := by
  refine exists_nextIsStep fun op hop => ?_
  have hop : (s.schedule.dropWhile fun op => !op.isStep).head? = some op := hop
  have hhead := List.head?_dropWhile_not (fun op : HostOp => !op.isStep) s.schedule
  rw [hop] at hhead
  simpa using hhead

section
variable {m : Memory} (hwf : m.wf = true) {a : Nat} (ha : a ≤ 4094)
include hwf ha

/-- A word written is the word read from its address (R53). -/
theorem readWord_writeWord : (m.writeWord a w).readWord a = w := by
  have hblock : a + [w.extractLsb' 8 8, w.extractLsb' 0 8].length ≤ 4096 := Nat.add_le_add_right ha 2
  have hhigh : (m.writeWord a w).read a = highByte w := read_storeBlock_inside hwf hblock (k := 0) rfl
  have hlow : (m.writeWord a w).read (a + 1) = lowByte w := read_storeBlock_inside hwf hblock (k := 1) rfl
  rw [Memory.readWord, hhigh, hlow, highByte_append_lowByte]

/-- A word written leaves every byte but its two (R57). -/
theorem read_writeWord_of_ne {a' : Nat} (h : a' ≠ a) (h' : a' ≠ a + 1) :
    (m.writeWord a w).read a' = m.read a' := by
  refine read_storeBlock_outside hwf (Nat.add_le_add_right ha 2) ?_
  simp only [List.length_cons, List.length_nil]
  omega

end

/-- Settles O44: the placed word is fetched, and its effect is on the entered state. -/
theorem placedWordRunsNext : Obligations.PlacedWordRunsNext := by
  intro s w i hwf hw
  have hword := decode_of_decodeTableWord hw
  unfold State.withFetchWord
  generalize tableWord 16 w = word at hword ⊢
  obtain ⟨keys, rnd, hnext⟩ := placeWord_nextIsStep s word
  obtain ⟨-, -, -, hmemory, -⟩ := (s.placeWord word).nextOp_machine
  have hpc := placeWord_pc_toNat s word
  have hdecode : decode ((s.placeWord word).memory.readWord (s.placeWord word).pc.toNat) = .instr i := by
    rw [hpc, placeWord_memory, readWord_writeWord word hwf (placeAddr_le s), hword]
  refine ⟨_, step_eq_exec hnext (hpc.trans_le (placeAddr_le s)) hdecode,
    ((agreesBut_placeWord s word).trans (agreesBut_entered _ keys rnd)).mono (by simp) (by simp), fun hle => ?pc,
    fun a ha ha' => ?memory⟩
  case pc =>
    have hplace : s.placeAddr = s.pc.toNat := if_neg (Nat.not_lt.2 hle)
    have hsame : (s.placeWord word).pc = s.pc := BitVec.eq_of_toNat_eq (hpc.trans hplace)
    rw [State.entered, State.setPc_pc, hsame]
  case memory =>
    rw [State.entered, State.setPc_memory, State.latch_memory, hmemory, placeWord_memory,
      read_writeWord_of_ne word hwf (placeAddr_le s) ha ha']

end Sys2Proof.Machine
end

section
/-! PROOFS. LOAD, RESET and the boot sequence: the statements of 10_state.md and 70_reset_and_hazards.md about them. -/

namespace Sys2Proof.Machine

variable {s t : State} {a : Addr} {b : Byte}

/-- When the host's next operation is LOAD, a step is that LOAD. -/
theorem step_of_nextIsLoad (h : s.nextOp.1 = .load a b) : step s = .next (s.nextOp.2.load a b) := by
  simp only [step, h, applyOp]

/-- When the host's next operation is RESET, a step is that RESET. -/
theorem step_of_nextIsReset (h : s.nextOp.1 = .reset) : step s = .next s.nextOp.2.resetMachine := by
  simp only [step, h, applyOp]

/-- RESET leaves the Machine State after reset, whatever it was (R210). -/
theorem sameMachine_resetMachine (s : State) : SameMachine State.reset s.resetMachine := by
  constructor <;> simp [State.resetMachine, State.reg]

/-- Settles O35: a write of one byte of canonical memory. -/
theorem loadWritesOneByte : Obligations.LoadWritesOneByte := by
  intro s a b hwf hload
  obtain ⟨-, -, -, hmemory, -⟩ := s.nextOp_machine
  refine ⟨_, step_of_nextIsLoad hload, fun a' => ?_,
    ((sameMachine_nextOp s).trans (agreesBut_setMemory _ _)).mono (by simp) (by simp)⟩
  rw [State.load_eq, State.setMemory_memory, hmemory, Memory.read_write hwf]

/-- Settles O36: reset memory lists nothing, so every byte reads as its reset byte. -/
theorem resetValues : Obligations.ResetValues := by
  refine ⟨rfl, fun k => ?reg, rfl, rfl, rfl, rfl, blankFb_pixel, fun a => ?memory, rfl, fun s hreset =>
    ⟨_, step_of_nextIsReset hreset, sameMachine_resetMachine _⟩⟩
  case reg => simp [State.reset, State.reg]
  case memory =>
    show Memory.unlisted a = _
    have hfont : (fontBase ≤ a ∧ a < fontBase + 80) ↔ (0x050 ≤ a ∧ a ≤ 0x09F) := by unfold fontBase; omega
    simp only [Memory.unlisted, hfont]

/-- A scheduled operation that is first is the next, and its step leaves the rest. -/
theorem nextOp_of_schedule {op : HostOp} {rest : List HostOp} (h : s.schedule = op :: rest) :
    s.nextOp = (op, { s with schedule := rest }) := by
  rw [State.nextOp, h]

/-- The LOADs of an image, scheduled first, run to their end: memory takes the image as one block store and the rest of
the schedule is left (R212). -/
theorem run_loadOps (image : List Byte) (rest : List HostOp) {a : Nat} (ha : a + image.length ≤ 4096)
    (hschedule : s.schedule = loadOps a image ++ rest) :
    core.run (loadOps a image).length s =
      .next { s with memory := s.memory.storeBlock a image, schedule := rest } := by
  induction image generalizing s a with
  | nil => cases hschedule; rfl
  | cons b bs ih =>
    rw [List.length_cons] at ha
    have haddr : (BitVec.ofNat 12 a).toNat = a := by rw [BitVec.toNat_ofNat]; omega
    have hnext := nextOp_of_schedule hschedule
    have hstep := step_of_nextIsLoad (congrArg Prod.fst hnext)
    rw [hnext] at hstep
    refine (run_succ_of_step _ hstep).trans ((ih (by omega) rfl).trans ?_)
    rw [State.load_eq, haddr]
    rfl

/-- An image has a boot sequence exactly when it fits (R212, log 8). -/
theorem bootOps_eq_some {image : List Byte} {ops : List HostOp} :
    bootOps image = some ops ↔ WellFormed.imageOk image = true ∧ ops = .reset :: loadOps progBase image := by
  by_cases h : image.length ≤ 3584 <;> simp [bootOps, WellFormed.imageOk, h, eq_comm (a := ops)]

/-- The boot sequence is RESET and then the LOADs of the image (R212). -/
theorem run_bootOps {image : List Byte} (hfits : image.length ≤ 3584) (rest : List HostOp)
    (hschedule : s.schedule = .reset :: loadOps progBase image ++ rest) :
    core.run (loadOps progBase image).length.succ s =
      .next { s.resetMachine with memory := Memory.storeBlock [] progBase image, schedule := rest } := by
  have hnext := nextOp_of_schedule hschedule
  have hstep := step_of_nextIsReset (congrArg Prod.fst hnext)
  rw [hnext] at hstep
  refine (run_succ_of_step _ hstep).trans (run_loadOps image rest ?_ rfl)
  unfold progBase
  omega

/-- Reset memory with an image stored as one block has the image at 0x200 and reset bytes elsewhere (R34, R212). -/
theorem read_storeBlock_image {image : List Byte} (hfits : image.length ≤ 3584) (a : Nat) :
    (Memory.storeBlock [] progBase image).read a =
      if 0x200 ≤ a ∧ a < 0x200 + image.length then image.getD (a - 0x200) 0 else State.reset.memory.read a := by
  have hblock : 0x200 + image.length ≤ 4096 := by omega
  split
  case isTrue hin =>
    obtain ⟨k, rfl⟩ := Nat.exists_eq_add_of_le hin.1
    have hk : k < image.length := by omega
    rw [Nat.add_sub_cancel_left, List.getD_eq_getElem _ _ hk]
    exact read_storeBlock_inside Memory.wf_nil hblock (List.getElem?_eq_getElem hk)
  case isFalse hout => exact read_storeBlock_outside Memory.wf_nil hblock (by omega)

/-- Settles O37: the run of the boot sequence ends in the reset state with the image stored as one block. -/
theorem bootSequenceLoadsImage : Obligations.BootSequenceLoadsImage := by
  refine fun image => ⟨fun hok => ?_, fun hno => ?_⟩
  · have hfits : image.length ≤ 3584 := of_decide_eq_true hok
    exact ⟨_, bootOps_eq_some.2 ⟨hok, rfl⟩, fun s rest hschedule =>
      ⟨_, run_bootOps hfits rest hschedule, rfl, read_storeBlock_image hfits,
        by constructor <;> simp [State.resetMachine, State.reg]⟩⟩
  · exact if_neg (of_decide_eq_false hno)

end Sys2Proof.Machine
end

section
/-! PROOFS. The launch premises of 70_reset_and_hazards.md: along a list of operations, and along a run. -/

namespace Sys2Proof.Machine

variable {s t : State}

/-- Whether LOAD may be used after a list of operations (R212, log 8). -/
def launchingAfter (now : Bool) (ops : List HostOp) : Bool := ops.foldl (fun now op => op.launching now) now

/-- The premise on LOAD, of one operation and then of what follows it. -/
theorem loadsAtLaunch_cons (now : Bool) (op : HostOp) (ops : List HostOp) :
    loadsAtLaunch now (op :: ops) = (loadsAtLaunch now [op] && loadsAtLaunch (op.launching now) ops) := by
  simp [loadsAtLaunch]

/-- The premise on LOAD, of a list and then of what follows it. -/
theorem loadsAtLaunch_append (now : Bool) (ops ops' : List HostOp) :
    loadsAtLaunch now (ops ++ ops') = (loadsAtLaunch now ops && loadsAtLaunch (launchingAfter now ops) ops') := by
  induction ops generalizing now with
  | nil => rfl
  | cons op ops ih =>
    rw [List.cons_append, loadsAtLaunch_cons now op (ops ++ ops'), loadsAtLaunch_cons now op ops, ih, Bool.and_assoc]
    rfl

/-- Only a RESET opens a launch (R212). -/
theorem launchingAfter_false {ops : List HostOp} (h : ∀ op ∈ ops, op ≠ .reset) : launchingAfter false ops = false := by
  induction ops with
  | nil => rfl
  | cons op ops ih =>
    obtain ⟨hop, hops⟩ := List.forall_mem_cons.1 h
    cases op with
    | reset => exact absurd rfl hop
    | step | tick | load => exact ih hops

/-- A LOAD after a STEP, with no RESET between them, breaks the premise (R212). -/
theorem loadsAtLaunch_load_after_step (now : Bool) (before between after : List HostOp) (keys : KeySet) (rnd : Byte)
    (a : Addr) (b : Byte) (h : ∀ op ∈ between, op ≠ .reset) :
    loadsAtLaunch now (before ++ .step keys rnd :: (between ++ .load a b :: after)) = false := by
  have hstep (now' : Bool) (ops : List HostOp) :
      loadsAtLaunch now' (.step keys rnd :: ops) = loadsAtLaunch false ops := rfl
  have hload : loadsAtLaunch false (.load a b :: after) = false := rfl
  rw [loadsAtLaunch_append, hstep, loadsAtLaunch_append, launchingAfter_false h, hload, Bool.and_false, Bool.and_false]

/-- Settles O50: the boot sequence opens a launch and keeps it open. -/
theorem launchPremisesAdmitBootedRuns : Obligations.LaunchPremisesAdmitBootedRuns := by
  refine fun image ops => ⟨⟨?premises, ?booted⟩, ?broken⟩
  case premises =>
    rintro ⟨hfits, ⟨boot, rest, hboot, rfl⟩, hloads⟩
    refine ⟨hfits, boot, rest, hboot, rfl, ?_⟩
    obtain ⟨-, rfl⟩ := bootOps_eq_some.1 hboot
    exact (loadsAtLaunch_loadOps progBase image rest).symm.trans hloads
  case booted =>
    rintro ⟨hfits, boot, rest, hboot, rfl, hloads⟩
    refine ⟨hfits, ⟨boot, rest, hboot, rfl⟩, ?_⟩
    obtain ⟨-, rfl⟩ := bootOps_eq_some.1 hboot
    exact (loadsAtLaunch_loadOps progBase image rest).trans hloads
  case broken =>
    rintro before keys rnd between a b after hbetween rfl ⟨-, -, hloads⟩
    rw [loadsAtLaunch_load_after_step _ _ _ _ _ _ _ _ hbetween] at hloads
    cases hloads

/-- An instruction leaves the schedule alone, and so does a STEP (log 1). -/
theorem stepInstr_schedule {keys : KeySet} {rnd : Byte} (h : stepInstr keys rnd s = .next t) :
    t.schedule = s.schedule := by
  obtain ⟨-, ⟨i, -, hexec⟩ | rfl⟩ := stepInstr_next_cases h
  · obtain ⟨-, -, hschedule, -⟩ := (exec_frame hexec).host (host_notMem_writtenParts i)
    exact hschedule
  · rfl

/-- A step leaves the schedule without the operation it took (log 1). -/
theorem step_schedule (h : step s = .next t) : t.schedule = s.nextOp.2.schedule := by
  obtain ⟨keys, rnd, -, hstep⟩ | ⟨-, hstep⟩ | ⟨a, b, -, hstep⟩ | ⟨-, hstep⟩ := step_cases s
  · exact stepInstr_schedule (hstep.symm.trans h)
  all_goals cases hstep.symm.trans h; rfl

/-- A STEP that changes memory is one of FX33 or FX55 (R133, R134). -/
theorem stepInstr_memory_cases {keys : KeySet} {rnd : Byte} (h : stepInstr keys rnd s = .next t) :
    t.memory = s.memory ∨ s.pc.toNat ≤ 4094 ∧ ∃ x, decode (s.memory.readWord s.pc.toNat) = .instr (.ldBcd x) ∨
      decode (s.memory.readWord s.pc.toNat) = .instr (.storeRegs x) := by
  obtain ⟨hle, ⟨i, hdecode, hexec⟩ | rfl⟩ := stepInstr_next_cases h
  · obtain heq | ⟨x, _, hi, -⟩ := exec_memory_cases hexec
    · exact .inl heq
    · obtain rfl | rfl := hi
      · exact .inr ⟨hle, x, .inl hdecode⟩
      · exact .inr ⟨hle, x, .inr hdecode⟩
  · exact .inl rfl

/-- Settles O51: the operation taken keeps the premise, and outside a launch it is no LOAD. -/
theorem memoryIsTheInstructionsAfterLaunch : Obligations.MemoryIsTheInstructionsAfterLaunch := by
  intro now s t hloads h
  obtain ⟨hrest, hnoload⟩ := loadsAtLaunch_nextOp hloads
  refine ⟨step_schedule h ▸ hrest, fun hnow hne => ?_⟩
  obtain ⟨-, hpc, -, hmemory, -⟩ := s.nextOp_machine
  obtain ⟨keys, rnd, hnext, hstep⟩ | ⟨-, hstep⟩ | ⟨a, b, hload, -⟩ | ⟨hreset, -⟩ := step_cases s
  · obtain heq | ⟨hle, x, hword⟩ := stepInstr_memory_cases (hstep.symm.trans h)
    · exact absurd (heq.trans hmemory) hne
    · rw [hmemory, hpc] at hword
      exact .inr ⟨keys, rnd, x, hnext, hpc ▸ hle, hword⟩
  · cases hstep.symm.trans h
    exact absurd hmemory hne
  · exact absurd hload (hnoload hnow a b)
  · exact .inl hreset

end Sys2Proof.Machine
end
